-- ==== Sys2Proof/Word.lean ====
section
/-! DEFINITION. The machine's word types: what the spec treats as bits (R5, R9, R31, R80). -/

namespace Sys2Proof

/-- One word of the packed long-array, 64 bits without a sign (R9, section 5.1 of 00_scope.md, R123). -/
abbrev Word := BitVec 64

/-- The data of one CSR transaction, 32 bits (R20). -/
abbrev CsrWord := BitVec 32

/-- A command word, the 32-bit data of a `CsrWrite(7, c)` (R80). -/
abbrev CommandWord := BitVec 32

end Sys2Proof
end

