-- ==== Sys2Proof/Syntax.lean ====
section
/-! DEFINITION. The thirteen commands of `PIU v1` (R84), one constructor per row of spec/opcode_table.json. -/

namespace Sys2Proof

/-- A command. The coordinates of format C are the three unsigned 4-bit fields of the command word, in the
assembler's order x, y, z (R82, R83, R89): a coordinate outside 0..15 cannot be encoded, and cannot be written
as a term of this type (log entry 8). -/
inductive Instr where
  /-- `NOP`: do nothing (R160). -/
  | nop
  /-- `CLR`: soft reset of the registers (R161). -/
  | clr
  /-- `WIDTHBS`: field width under the block-state policy (R100). -/
  | widthbs
  /-- `WIDTHBIO`: field width under the biome policy (R101). -/
  | widthbio
  /-- `LINBS x, y, z`: linear voxel index (R110). -/
  | linbs (x y z : BitVec 4)
  /-- `LINBIO x, y, z`: biome sub-cell index (R111). -/
  | linbio (x y z : BitVec 4)
  /-- `EXTPAD`: extract a field of the padded layout (R121). -/
  | extpad
  /-- `EXTSPAN`: extract a field of the spanning layout (R124). -/
  | extspan
  /-- `GETBS x, y, z`: whole block-state lookup (R142). -/
  | getbs (x y z : BitVec 4)
  /-- `GETBIO x, y, z`: whole biome lookup (R143). -/
  | getbio (x y z : BitVec 4)
  /-- `CHKPAL`: check `RESULT` against the palette length (R127). -/
  | chkpal
  /-- `HMGET`: height of a heightmap field (R153). -/
  | hmget
  /-- `HMLEN`: retained length of the heightmap (R154). -/
  | hmlen
  deriving DecidableEq, Repr

end Sys2Proof
end

