-- ==== Sys2Proof/WellFormed.lean ====
section
/-! DEFINITION. Well-formedness of a command word by the opcode map's match and mask (R84, R86), stated apart from
the decoder. Every term of `Instr` is well formed, since its operands are 4-bit fields (log entry 8); what can be
ill formed is a word. -/

namespace Sys2Proof

/-- One row of the opcode map: `c` is the row's command exactly when `c & mask = pattern` (R84). -/
structure OpcodeRow where
  /-- The row's mnemonic in spec/opcode_table.json. -/
  mnemonic : String
  /-- The row's `match`. -/
  pattern : CommandWord
  /-- The row's `mask`. -/
  mask : CommandWord
  deriving DecidableEq, Repr

/-- The mask of format N: every bit is fixed (R81, R84). -/
def maskN : CommandWord := 0xFFFFFFFF#32

/-- The mask of format C: all but the twelve coordinate bits are fixed (R82, R84). -/
def maskC : CommandWord := 0xFFFFF000#32

/-- The thirteen rows of the opcode map (R84). -/
def opcodeRows : List OpcodeRow :=
  [⟨"NOP", 0x00000000#32, maskN⟩,
   ⟨"CLR", 0x10000000#32, maskN⟩,
   ⟨"WIDTHBS", 0x20000000#32, maskN⟩,
   ⟨"WIDTHBIO", 0x30000000#32, maskN⟩,
   ⟨"LINBS", 0x40000000#32, maskC⟩,
   ⟨"LINBIO", 0x50000000#32, maskC⟩,
   ⟨"EXTPAD", 0x60000000#32, maskN⟩,
   ⟨"EXTSPAN", 0x70000000#32, maskN⟩,
   ⟨"GETBS", 0x80000000#32, maskC⟩,
   ⟨"GETBIO", 0x90000000#32, maskC⟩,
   ⟨"CHKPAL", 0xA0000000#32, maskN⟩,
   ⟨"HMGET", 0xC0000000#32, maskN⟩,
   ⟨"HMLEN", 0xD0000000#32, maskN⟩]

/-- The word fits the row (R84). -/
def OpcodeRow.fits (r : OpcodeRow) (c : CommandWord) : Bool := c &&& r.mask == r.pattern

/-- The word is one of the thirteen commands (R84); any other word is illegal (R86). -/
def legalWord (c : CommandWord) : Bool := opcodeRows.any (·.fits c)

/-- The mnemonic of a command (R84). -/
def Instr.mnemonic : Instr → String
  | .nop => "NOP"
  | .clr => "CLR"
  | .widthbs => "WIDTHBS"
  | .widthbio => "WIDTHBIO"
  | .linbs _ _ _ => "LINBS"
  | .linbio _ _ _ => "LINBIO"
  | .extpad => "EXTPAD"
  | .extspan => "EXTSPAN"
  | .getbs _ _ _ => "GETBS"
  | .getbio _ _ _ => "GETBIO"
  | .chkpal => "CHKPAL"
  | .hmget => "HMGET"
  | .hmlen => "HMLEN"

end Sys2Proof
end

