-- ==== Sys2Proof/Decode.lean ====
section
/-! DEFINITION. Decoding of command words, total, rejecting by name (R80 to R87), and the encoder (R81, R82, R93). -/

namespace Sys2Proof

/-- Why a command word is illegal: the three conditions of R86. -/
inductive Illegal where
  /-- (a) `OP` is 0xB, 0xE or 0xF. Raised by `decode`; taken as `E_ILLCMD`, as the spec says. -/
  | reservedOpcode
  /-- (b) `OP` selects a format N command and bits 27..0 are not all zero. -/
  | reservedBitsN
  /-- (c) `OP` selects a format C command and bits 27..12 are not all zero. -/
  | reservedBitsC
  deriving DecidableEq, Repr

/-- `OP = c[31:28]` (R81, R82). -/
def opField (c : CommandWord) : BitVec 4 := c.extractLsb' 28 4

/-- The reserved bits of format N, `c[27:0]` (R81). -/
def reservedFieldN (c : CommandWord) : BitVec 28 := c.extractLsb' 0 28

/-- The reserved bits of format C, `c[27:12]` (R82). -/
def reservedFieldC (c : CommandWord) : BitVec 16 := c.extractLsb' 12 16

/-- `x = c[3:0]` (R83). -/
def xField (c : CommandWord) : BitVec 4 := c.extractLsb' 0 4

/-- `y = c[11:8]` (R83). -/
def yField (c : CommandWord) : BitVec 4 := c.extractLsb' 8 4

/-- `z = c[7:4]` (R83). -/
def zField (c : CommandWord) : BitVec 4 := c.extractLsb' 4 4

/-- A format N word is its command when its reserved bits are zero (R81, R86 (b)). -/
def decodeN (c : CommandWord) (i : Instr) : Except Illegal Instr :=
  if reservedFieldN c = 0 then .ok i else .error .reservedBitsN

/-- A format C word is its command on the three coordinate fields when its reserved bits are zero
(R82, R83, R86 (c)). -/
def decodeC (c : CommandWord) (f : BitVec 4 → BitVec 4 → BitVec 4 → Instr) : Except Illegal Instr :=
  if reservedFieldC c = 0 then .ok (f (xField c) (yField c) (zField c)) else .error .reservedBitsC

/-- The command a word is, or why it is illegal (R84, R86, R87). It reads no register (R87). -/
def decode (c : CommandWord) : Except Illegal Instr :=
  match (opField c).toNat with
  | 0x0 => decodeN c .nop
  | 0x1 => decodeN c .clr
  | 0x2 => decodeN c .widthbs
  | 0x3 => decodeN c .widthbio
  | 0x4 => decodeC c .linbs
  | 0x5 => decodeC c .linbio
  | 0x6 => decodeN c .extpad
  | 0x7 => decodeN c .extspan
  | 0x8 => decodeC c .getbs
  | 0x9 => decodeC c .getbio
  | 0xA => decodeN c .chkpal
  | 0xC => decodeN c .hmget
  | 0xD => decodeN c .hmlen
  | _ => .error .reservedOpcode

/-- A format N word from its opcode: bits 27..0 are zero (R81). -/
def encodeN (op : BitVec 4) : CommandWord := op ++ 0#28

/-- A format C word from its opcode and coordinates, the nibbles in the order y, z, x (R82). -/
def encodeC (op x y z : BitVec 4) : CommandWord := op ++ 0#16 ++ y ++ z ++ x

/-- The word of a command (R84, R93). -/
def encode : Instr → CommandWord
  | .nop => encodeN 0x0#4
  | .clr => encodeN 0x1#4
  | .widthbs => encodeN 0x2#4
  | .widthbio => encodeN 0x3#4
  | .linbs x y z => encodeC 0x4#4 x y z
  | .linbio x y z => encodeC 0x5#4 x y z
  | .extpad => encodeN 0x6#4
  | .extspan => encodeN 0x7#4
  | .getbs x y z => encodeC 0x8#4 x y z
  | .getbio x y z => encodeC 0x9#4 x y z
  | .chkpal => encodeN 0xA#4
  | .hmget => encodeN 0xC#4
  | .hmlen => encodeN 0xD#4

/-- The instruction whose opcode-table bits are `w`: the low `nbits` bits of `w`, zeros above, as one 32-bit
command word (R80); none where it is illegal. -/
def decodeTableWord (nbits w : Nat) : Option Instr :=
  (decode (BitVec.ofNat 32 (w % 2 ^ nbits))).toOption

end Sys2Proof
end

