-- ==== Sys2Proof/Config.lean ====
section
/-! DEFINITION. The parameters of the hardware and the values R9 fixes for them, and the two the spec leaves open. -/

namespace Sys2Proof.Config

/-- `WMEM_WORDS`, the number of words of the word memory (R9, R31). The spec lets a model take it as a
parameter; here it has the value the spec fixes (log entry 17). -/
@[simp] abbrev wmemWords : Nat := 2048

/-- `WIDTH_MAX`, the largest field width an extraction accepts (R9, R121, R124). -/
@[simp] abbrev widthMax : Nat := 32

/-- The largest value the 6-bit register `WIDTH` holds; host writes saturate here (R24). -/
@[simp] abbrev widthSaturation : Nat := 63

/-- Bits of one word of the packed array (R9). -/
@[simp] abbrev wordBits : Nat := 64

/-- The minimum width of the block-state policy (R9, R100). -/
@[simp] abbrev minBlockStateWidth : Nat := 4

/-- Bits of one heightmap field (R9, R150). -/
@[simp] abbrev heightBits : Nat := 9

/-- Heightmap fields in one word (R9, R150). -/
@[simp] abbrev heightsPerWord : Nat := 7

/-- What is subtracted from a heightmap field to give a height: 64 + 1 (R155). -/
@[simp] abbrev heightOffset : Int := 65

/-- The register number of `CMD`, whose write executes a command (R20, R29). -/
@[simp] abbrev cmdNumber : Nat := 7

/-- OPEN (R67, D2, U10): the bus address of the CSR window. No rule of the unit reads it (log entry 10). -/
opaque csrBase : Nat

/-- OPEN (R67, D2, U10): the bus address of the `WMEM` window. No rule of the unit reads it (log entry 10). -/
opaque wmemBase : Nat

end Sys2Proof.Config
end

