-- ==== Sys2Proof/Machine/State.lean ====
section
/-! DEFINITION. The machine's state as plain data (R6, R20 to R32), the host's transactions and their replies (R5,
R200), the reasons a step can stop, and the state after reset (R36, R200). -/

namespace Sys2Proof.Machine

/-- Register `STATUS` (R27): 7 bits in four fields. `Status.bits` puts them at their bit positions (log
entry 18). -/
structure Status where
  /-- Bits 3..0, `ERR`: 0 when the last command completed, else its fault code (R171). -/
  err : BitVec 4
  /-- Bit 4, `VALID`. -/
  valid : Bool
  /-- Bit 5, `ABSENT`. -/
  absent : Bool
  /-- Bit 6, `SPANNED`. -/
  spanned : Bool
  deriving DecidableEq, Repr

/-- What the host can do to the unit: the four transactions of R5 and the reset input of R200. Register numbers and
word indices are natural numbers (log entry 9). -/
inductive Transaction where
  /-- `CsrWrite(n, v)` (R21); `CsrWrite(7, c)` issues the command `c` (R29). -/
  | csrWrite (n : Nat) (v : CsrWord)
  /-- `CsrRead(n)` (R21). -/
  | csrRead (n : Nat)
  /-- `WmemWrite(a, v)` (R31). -/
  | wmemWrite (a : Nat) (v : Word)
  /-- `WmemRead(a)` (R31). -/
  | wmemRead (a : Nat)
  /-- `Reset`, 'a fifth kind of host action' (R200). -/
  | reset
  deriving DecidableEq, Repr

/-- The reply of a transaction (R5). -/
inductive Reply where
  /-- No transaction has been taken since reset. -/
  | noReply
  /-- A write has returned; it carries no data. -/
  | ack
  /-- The 32-bit value of a `CsrRead`. -/
  | csr (v : CsrWord)
  /-- The 64-bit value of a `WmemRead`. -/
  | word (v : Word)
  deriving DecidableEq, Repr

/-- The word memory: one entry for each word that a `WmemWrite` has written since reset, word indices strictly
rising; a word not listed has no value (R31, R32; log entries 1 and 2). -/
abbrev Memory := List (Nat × Word)

/-- Everything the spec gives the machine (R6), and the host's side of the interface. -/
structure State where
  /-- `PLEN`, CSR 0: palette length (R22). -/
  plen : BitVec 32
  /-- `DLEN`, CSR 1: number of valid words in `WMEM` (R23). -/
  dlen : BitVec 12
  /-- `WIDTH`, CSR 2: field width in bits (R24). -/
  width : BitVec 6
  /-- `IDX`, CSR 3: field index (R25). -/
  idx : BitVec 32
  /-- `RESULT`, CSR 4: the value of the last command that produces one (R26). -/
  result : BitVec 32
  /-- `STATUS`, CSR 5: outcome of the last command (R27). -/
  status : Status
  /-- `CTRL`, CSR 6: bit 0 is `GENFULL` (R28). -/
  ctrl : BitVec 1
  /-- `WMEM`, the word memory (R31). -/
  wmem : Memory
  /-- The model's own: the host's transactions that the unit has not taken yet, in issue order (R5, R68, R91; log
  entry 3). -/
  pending : List Transaction
  /-- The model's own: the reply of the latest transaction (R5; log entry 4). -/
  reply : Reply
  deriving DecidableEq, Repr

/-- No constructor: no rule stops the machine with a fault. A command's fault is recorded in `STATUS` and the unit
goes on (R8, R170, R175, R182), so it is a next state (log entry 7). -/
inductive Fault where
  deriving DecidableEq, Repr

/-- Why the model gives a step no meaning. -/
inductive Refusal where
  /-- Raised by `exec` for a command whose meaning is not written yet (none in this model). Safe: the run stops. -/
  | notModelled (mnemonic : String)
  /-- Raised by a command's read or a host `WmemRead` of word `a` that no `WmemWrite` has written since reset: the
  spec leaves its content unspecified and asks for a refusal (R32, U2, D35; log entry 2). Safe: the hardware goes
  on with some value, and the model proves nothing about it. -/
  | unwrittenWord (a : Nat)
  deriving DecidableEq, Repr

/-- The state after reset (R36, R200): every register 0, every word of `WMEM` never written, the host's queue empty
(log entry 3) and no reply given (log entry 4). -/
def State.reset : State where
  plen := 0
  dlen := 0
  width := 0
  idx := 0
  result := 0
  status := ⟨0, false, false, false⟩
  ctrl := 0
  wmem := []
  pending := []
  reply := .noReply

end Sys2Proof.Machine
end

