-- ==== Sys2Proof/Machine/Flags.lean ====
section
/-! DEFINITION. The values commands give `STATUS` (R27, R34) and the fault codes (R171). -/

namespace Sys2Proof.Machine

/-- The six causes of a command fault (R171). -/
inductive FaultCode where
  /-- `E_ILLCMD`: the command word is illegal. -/
  | illCmd
  /-- `E_PLEN`: the palette is empty. -/
  | plen
  /-- `E_WIDTH`: `WIDTH` is not usable by the layout. -/
  | width
  /-- `E_TRUNC`: a needed word is at index `DLEN` or above. -/
  | trunc
  /-- `E_RANGE`: the extracted value is not below `PLEN`. -/
  | range
  /-- `E_NOFIELD`: `IDX` is at or beyond the retained length. -/
  | noField
  deriving DecidableEq, Repr

/-- The number of a fault code (R171). -/
def FaultCode.code : FaultCode → BitVec 4
  | .illCmd => 1
  | .plen => 2
  | .width => 3
  | .trunc => 4
  | .range => 5
  | .noField => 6

/-- `{ERR=0, VALID=0, ABSENT=0, SPANNED=0}`: a command that completed and produced no value (R34). -/
def Status.cleared : Status := ⟨0, false, false, false⟩

/-- `{ERR=0, VALID=1, ABSENT=0, SPANNED=s}`: a value was produced (R34). -/
def Status.value (spanned : Bool) : Status := ⟨0, true, false, spanned⟩

/-- `{ERR=0, VALID=1, ABSENT=1, SPANNED=0}`: the default of an absent data array (R34, R141). -/
def Status.absentDefault : Status := ⟨0, true, true, false⟩

/-- `{ERR=0, VALID=0, ABSENT=1, SPANNED=0}`: the heightmap is unavailable (R34, R151). -/
def Status.unavailable : Status := ⟨0, false, true, false⟩

/-- `{ERR=code, VALID=0, ABSENT=0, SPANNED=0}`: what a fault writes (R175). -/
def Status.ofFault (e : FaultCode) : Status := ⟨e.code, false, false, false⟩

/-- What a passed palette check writes: `ERR` becomes 0, the other fields stay (R127, R34). -/
def Status.checked (st : Status) : Status := { st with err := 0 }

/-- The seven bits of `STATUS` at their positions: `ERR` 3..0, `VALID` 4, `ABSENT` 5, `SPANNED` 6 (R27). -/
def Status.bits (st : Status) : BitVec 7 :=
  BitVec.ofBool st.spanned ++ BitVec.ofBool st.absent ++ BitVec.ofBool st.valid ++ st.err

end Sys2Proof.Machine
end

