-- ==== Sys2Proof/Machine/Operands.lean ====
section
/-! DEFINITION. What commands compute from their operands alone: the bit helpers of 00_scope.md (R10 to R12), the
width rules (R100, R101) and the index formulas (R110, R111). All in natural numbers, exact (R14, R15). -/

namespace Sys2Proof.Machine

/-- `bitlen(n)`: 0 for 0, else `floor(log2(n)) + 1` (R10, C2). -/
def bitlen (n : Nat) : Nat := if n = 0 then 0 else Nat.log2 n + 1

/-- `mask(w) = 2^w - 1` (R11). -/
def mask (w : Nat) : Nat := 2 ^ w - 1

/-- `shr(v, s)`, the logical right shift of a word: `v div 2^s` (R12, R123). -/
def shr (v : Word) (s : Nat) : Nat := v.toNat / 2 ^ s

/-- The width of a field for a palette of `n >= 1` entries, biome policy (R101). -/
def biomeWidth (n : Nat) : Nat := bitlen (n - 1)

/-- The width of a field for a palette of `n >= 1` entries, block-state policy (R100). -/
def blockStateWidth (n : Nat) : Nat := max (bitlen (n - 1)) Config.minBlockStateWidth

/-- The linear voxel index `y*256 + z*16 + x` (R110). -/
def linearIndex (x y z : BitVec 4) : Nat := y.toNat * 256 + z.toNat * 16 + x.toNat

/-- The biome sub-cell index `((y mod 16) div 4)*16 + (z div 4)*4 + (x div 4)` (R111, C10). -/
def subCellIndex (x y z : BitVec 4) : Nat :=
  ((y.toNat % 16) / 4) * 16 + (z.toNat / 4) * 4 + x.toNat / 4

/-- The height a heightmap field stands for, as a signed integer: `v - 64 - 1` (R155). -/
def heightOf (v : Nat) : Int := (v : Int) - Config.heightOffset

end Sys2Proof.Machine
end

