-- ==== Sys2Proof/Machine/Ops.lean ====
section
/-! DEFINITION. The named operations over memory and registers, taking a fault (R175), and the composition of
micro-operations (R13, R140). -/

namespace Sys2Proof.Machine

/-! ## The word memory -/

/-- The canonical form of the word memory: indices strictly rising and inside the memory (R31; log entry 1). -/
abbrev Memory.wf (m : Memory) : Prop :=
  m.Pairwise (fun c d => c.1 < d.1) ∧ ∀ c ∈ m, c.1 < Config.wmemWords

/-- Word `a`, or none when nothing has written it since reset (R31, R32). -/
def Memory.read : Memory → Nat → Option Word
  | [], _ => none
  | (b, v) :: m, a => if a = b then some v else Memory.read m a

/-- Store `v` at word `a`, keeping the canonical form (R31). -/
def Memory.write : Memory → Nat → Word → Memory
  | [], a, v => [(a, v)]
  | (b, w) :: m, a, v =>
    if a < b then (a, v) :: (b, w) :: m
    else if a = b then (a, v) :: m
    else (b, w) :: Memory.write m a v

/-! ## Register writes by the unit

Each value fits its register by the bound its rule states (R15). -/

/-- `csr[WIDTH] <- n`. -/
def State.setWidth (s : State) (n : Nat) : State := { s with width := BitVec.ofNat 6 n }

/-- `csr[IDX] <- n`. -/
def State.setIdx (s : State) (n : Nat) : State := { s with idx := BitVec.ofNat 32 n }

/-- `csr[RESULT] <- v`. -/
def State.setResult (s : State) (v : BitVec 32) : State := { s with result := v }

/-- `csr[STATUS] <- st`, every field at once. -/
def State.setStatus (s : State) (st : Status) : State := { s with status := st }

/-- The reply of the transaction being taken (R5). -/
def State.setReply (s : State) (r : Reply) : State := { s with reply := r }

/-- Bit `GENFULL` of `CTRL` (R28). -/
def State.genfull (s : State) : Bool := s.ctrl == 1#1

/-! ## Taking a fault -/

/-- `raise Fault(code)`: `STATUS <- {ERR=code, VALID=0, ABSENT=0, SPANNED=0}` and no other register; registers that
earlier steps of the command wrote keep their new values (R175). There is no return from a fault: nothing is saved,
and the unit is ready for the next command (R178, R179). -/
def State.raiseFault (s : State) (e : FaultCode) : State := s.setStatus (Status.ofFault e)

/-! ## Host access to registers and words -/

/-- The value of `CsrRead(n)`: the register zero-extended to 32 bits; `CMD` and the numbers 8 and above read 0
(R21, R29, R30). -/
def csrValue (n : Nat) (s : State) : CsrWord :=
  match n with
  | 0 => s.plen
  | 1 => s.dlen.setWidth 32
  | 2 => s.width.setWidth 32
  | 3 => s.idx
  | 4 => s.result
  | 5 => s.status.bits.setWidth 32
  | 6 => s.ctrl.setWidth 32
  | _ => 0

/-- What `CsrWrite(n, v)` stores for `n` other than 7: `DLEN` saturates at 2048 and `WIDTH` at 63, `CTRL` takes bit
0; `RESULT`, `STATUS` and the numbers 8 and above ignore the write (R21 to R25, R28, R30; log entry 19). -/
def csrStore (n : Nat) (v : CsrWord) (s : State) : State :=
  match n with
  | 0 => { s with plen := v }
  | 1 => { s with dlen := BitVec.ofNat 12 (min v.toNat Config.wmemWords) }
  | 2 => { s with width := BitVec.ofNat 6 (min v.toNat Config.widthSaturation) }
  | 3 => { s with idx := v }
  | 6 => { s with ctrl := v.extractLsb' 0 1 }
  | _ => s

/-- What `WmemWrite(a, v)` stores: nothing for `a` at 2048 or above (R31). -/
def wmemStore (a : Nat) (v : Word) (s : State) : State :=
  if a < Config.wmemWords then { s with wmem := s.wmem.write a v } else s

/-! ## Micro-operations -/

/-- Why a micro-operation does not complete. -/
inductive Stop where
  /-- It raises a fault (R175). -/
  | fault (e : FaultCode)
  /-- It reads word `a`, which nothing has written since reset (R32). -/
  | unwritten (a : Nat)
  deriving DecidableEq, Repr

/-- The outcome of a micro-operation (R13). -/
inductive Micro where
  /-- It completed; the next step of a compound command runs on this state. -/
  | completed (s : State)
  /-- It raised a fault, which this state records; the command ends here (R140, R175). -/
  | faulted (s : State)
  /-- It read word `a`, which nothing has written: the model refuses (R32). -/
  | refused (a : Nat)
  deriving DecidableEq, Repr

/-- Finish a micro-operation on `s`: commit its writes when its value is there; else change only `STATUS`, or refuse
(R175, R32). -/
def Micro.finish {α : Type} (s : State) (r : Except Stop α) (commit : α → State) : Micro :=
  match r with
  | .ok v => .completed (commit v)
  | .error (.fault e) => .faulted (s.raiseFault e)
  | .error (.unwritten a) => .refused a

/-- Run the next micro-operation of a sequence on the state the earlier ones left; the sequence stops at the first
fault (R13, R140). -/
def Micro.andThen (m : Micro) (next : State → Micro) : Micro :=
  match m with
  | .completed s => next s
  | .faulted s => .faulted s
  | .refused a => .refused a

/-- The outcome of the command that a sequence of micro-operations is: completing and faulting both leave the unit
in its ordinary state, ready for the next command (R8, R179). -/
def Micro.outcome : Micro → Host.Outcome State Fault Refusal
  | .completed s => .next s
  | .faulted s => .next s
  | .refused a => .refused (.unwrittenWord a)

/-! ## Reads of the word memory by the unit -/

/-- `MemRead(a, 8)`: fault with `E_TRUNC` at or beyond `DLEN`, else word `a` (R63). -/
def memRead (s : State) (a : Nat) : Except Stop Word :=
  if s.dlen.toNat ≤ a then .error (.fault .trunc)
  else match s.wmem.read a with
    | some v => .ok v
    | none => .error (.unwritten a)

/-- Field `k` of width `w` of the padded layout (R120, R121); `w` has been checked. -/
def paddedField (s : State) (w k : Nat) : Except Stop Nat := do
  let fpw := Config.wordBits / w
  let d ← memRead s (k / fpw)
  pure (shr d ((k % fpw) * w) &&& mask w)

/-- Field `k` of width `w` of the spanning layout, and whether it crossed into a second word (R124); `w` has been
checked. The current word is checked and read first, then the next (R63; log entries 15 and 16). -/
def spanningField (s : State) (w k : Nat) : Except Stop (Nat × Bool) := do
  let bitpos := w * k
  let word := bitpos / Config.wordBits
  let bitStart := bitpos % Config.wordBits
  let cur ← memRead s word
  if w ≤ Config.wordBits - bitStart then
    pure (shr cur bitStart &&& mask w, false)
  else do
    let nxt ← memRead s (word + 1)
    let loBits := Config.wordBits - bitStart
    let lo := shr cur bitStart
    let hi := nxt.toNat &&& mask (w - loBits)
    pure ((lo ||| (hi <<< loBits)) &&& mask w, true)

/-- `hmfield(k)`: field `k` of the heightmap, seven 9-bit fields a word, bit 63 unused (R150; log entry 14). -/
def hmField (s : State) (k : Nat) : Except Stop Nat := do
  let d ← memRead s (k / Config.heightsPerWord)
  pure (shr d (Config.heightBits * (k % Config.heightsPerWord)) &&& 0x1FF)

/-- The number of fields left of the first `n` after the all-zero fields at their end are dropped (R152). -/
def hmTail (s : State) : Nat → Except Stop Nat
  | 0 => pure 0
  | n + 1 => do
    let v ← hmField s n
    if v = 0 then hmTail s n else pure (n + 1)

/-- `hmlen()`: the retained length of the heightmap (R152). -/
def hmLength (s : State) : Except Stop Nat := hmTail s (Config.heightsPerWord * s.dlen.toNat)

end Sys2Proof.Machine
end

