-- ==== Sys2Proof/Machine/Control.lean ====
section
/-! DEFINITION. The control commands `NOP` and `CLR` (R160, R161). There is no other system command (R162). -/

namespace Sys2Proof.Machine

/-- `NOP`: nothing is read and nothing written, `STATUS` included (R160). -/
def execNop (s : State) : Host.Outcome State Fault Refusal := .next s

/-- `CLR`: every register becomes 0; `WMEM` is not changed (R161). -/
def execClr (s : State) : Host.Outcome State Fault Refusal :=
  .next { s with
    plen := 0
    dlen := 0
    width := 0
    idx := 0
    result := 0
    ctrl := 0
    status := Status.cleared }

end Sys2Proof.Machine
end

