-- ==== Sys2Proof/Machine/Extract.lean ====
section
/-! DEFINITION. The extraction commands `EXTPAD`, `EXTSPAN` and `CHKPAL` (R120 to R128). -/

namespace Sys2Proof.Machine

/-- The micro-operation `EXTPAD`: `RESULT <- field IDX` of the padded layout; `E_WIDTH` unless `1 <= WIDTH <= 32`,
then `E_TRUNC` (R121). -/
def microExtpad (s : State) : Micro :=
  if s.width.toNat < 1 ∨ Config.widthMax < s.width.toNat then .faulted (s.raiseFault .width)
  else Micro.finish s (paddedField s s.width.toNat s.idx.toNat) fun v =>
    (s.setResult (BitVec.ofNat 32 v)).setStatus (Status.value false)

/-- The micro-operation `EXTSPAN`: `RESULT <- field IDX` of the spanning layout, `SPANNED` when it crossed a word
boundary; `E_WIDTH` if `WIDTH > 32`, then `E_TRUNC` (R124). -/
def microExtspan (s : State) : Micro :=
  if Config.widthMax < s.width.toNat then .faulted (s.raiseFault .width)
  else Micro.finish s (spanningField s s.width.toNat s.idx.toNat) fun v =>
    (s.setResult (BitVec.ofNat 32 v.1)).setStatus (Status.value v.2)

/-- The micro-operation `CHKPAL`: `E_RANGE` unless `RESULT < PLEN`; passing, only `ERR` is written. `VALID` is not
looked at (R127). -/
def microChkpal (s : State) : Micro :=
  if s.plen.toNat ≤ s.result.toNat then .faulted (s.raiseFault .range)
  else .completed (s.setStatus s.status.checked)

/-- `EXTPAD` (R121). -/
def execExtpad (s : State) : Host.Outcome State Fault Refusal := (microExtpad s).outcome

/-- `EXTSPAN` (R124). -/
def execExtspan (s : State) : Host.Outcome State Fault Refusal := (microExtspan s).outcome

/-- `CHKPAL` (R127). -/
def execChkpal (s : State) : Host.Outcome State Fault Refusal := (microChkpal s).outcome

end Sys2Proof.Machine
end

