-- ==== Sys2Proof/Machine/Heightmap.lean ====
section
/-! DEFINITION. The heightmap commands `HMGET` and `HMLEN` (R150 to R156). -/

namespace Sys2Proof.Machine

/-- The gate of both heightmap commands: with `GENFULL = 0` the heightmap is unavailable, which is no fault; `RESULT`
is not written and no word is read (R151). -/
def heightmapGate (s : State) (decoded : Micro) : Micro :=
  if s.genfull then decoded else .completed (s.setStatus Status.unavailable)

/-- The height of field `k`: `E_NOFIELD` at or beyond the retained length, else the field less 65 (R152, R153,
R155). -/
def heightAt (s : State) (k : Nat) : Except Stop Int := do
  let n ← hmLength s
  if n ≤ k then .error (.fault .noField)
  else do
    let v ← hmField s k
    pure (heightOf v)

/-- `HMGET`: `RESULT <- sext_32(v - 65)` for field `IDX`, 32-bit two's complement (R153). -/
def execHmget (s : State) : Host.Outcome State Fault Refusal :=
  (heightmapGate s
    (Micro.finish s (heightAt s s.idx.toNat) fun h =>
      (s.setResult (BitVec.ofInt 32 h)).setStatus (Status.value false))).outcome

/-- `HMLEN`: `RESULT <- hmlen()` (R154). -/
def execHmlen (s : State) : Host.Outcome State Fault Refusal :=
  (heightmapGate s
    (Micro.finish s (hmLength s) fun n =>
      (s.setResult (BitVec.ofNat 32 n)).setStatus (Status.value false))).outcome

end Sys2Proof.Machine
end

