-- ==== Sys2Proof/Machine/Index.lean ====
section
/-! DEFINITION. The index commands `LINBS` and `LINBIO` (R110, R111). The heightmap has none (R112). -/

namespace Sys2Proof.Machine

/-- The micro-operation `LINBS x, y, z`: `IDX <- y*256 + z*16 + x` (R110). -/
def microLinbs (x y z : BitVec 4) (s : State) : Micro :=
  .completed ((s.setIdx (linearIndex x y z)).setStatus Status.cleared)

/-- The micro-operation `LINBIO x, y, z`: `IDX <- ((y mod 16) div 4)*16 + (z div 4)*4 + (x div 4)` (R111). -/
def microLinbio (x y z : BitVec 4) (s : State) : Micro :=
  .completed ((s.setIdx (subCellIndex x y z)).setStatus Status.cleared)

/-- `LINBS x, y, z` (R110). -/
def execLinbs (x y z : BitVec 4) (s : State) : Host.Outcome State Fault Refusal := (microLinbs x y z s).outcome

/-- `LINBIO x, y, z` (R111). -/
def execLinbio (x y z : BitVec 4) (s : State) : Host.Outcome State Fault Refusal := (microLinbio x y z s).outcome

end Sys2Proof.Machine
end

