-- ==== Sys2Proof/Machine/Width.lean ====
section
/-! DEFINITION. The width commands `WIDTHBS` and `WIDTHBIO` (R100 to R103). -/

namespace Sys2Proof.Machine

/-- The micro-operation `WIDTHBS`: `WIDTH <- max(bitlen(PLEN - 1), 4)`, `E_PLEN` for an empty palette (R100, R102). -/
def microWidthbs (s : State) : Micro :=
  if s.plen.toNat = 0 then .faulted (s.raiseFault .plen)
  else .completed ((s.setWidth (blockStateWidth s.plen.toNat)).setStatus Status.cleared)

/-- The micro-operation `WIDTHBIO`: `WIDTH <- bitlen(PLEN - 1)`, `E_PLEN` for an empty palette (R101, R102). -/
def microWidthbio (s : State) : Micro :=
  if s.plen.toNat = 0 then .faulted (s.raiseFault .plen)
  else .completed ((s.setWidth (biomeWidth s.plen.toNat)).setStatus Status.cleared)

/-- `WIDTHBS` (R100). -/
def execWidthbs (s : State) : Host.Outcome State Fault Refusal := (microWidthbs s).outcome

/-- `WIDTHBIO` (R101). -/
def execWidthbio (s : State) : Host.Outcome State Fault Refusal := (microWidthbio s).outcome

end Sys2Proof.Machine
end

