-- ==== Sys2Proof/Machine/Lookup.lean ====
section
/-! DEFINITION. The whole-lookup commands `GETBS` and `GETBIO`, sequences of micro-operations inside one step (R140
to R143). -/

namespace Sys2Proof.Machine

/-- The common prologue: `E_PLEN` for an empty palette; the default index 0 with `VALID` and `ABSENT` when the data
array is absent, writing neither `WIDTH` nor `IDX` and reading no word; else the lookup itself (R141). -/
def lookupPrologue (s : State) (lookup : State → Micro) : Micro :=
  if s.plen.toNat = 0 then .faulted (s.raiseFault .plen)
  else if s.dlen.toNat = 0 then .completed ((s.setResult 0).setStatus Status.absentDefault)
  else lookup s

/-- `GETBS x, y, z`: prologue, then `WIDTHBS`, `LINBS x, y, z`, `EXTPAD`, `CHKPAL` (R142). -/
def execGetbs (x y z : BitVec 4) (s : State) : Host.Outcome State Fault Refusal :=
  (lookupPrologue s fun s =>
    (((microWidthbs s).andThen (microLinbs x y z)).andThen microExtpad).andThen microChkpal).outcome

/-- `GETBIO x, y, z`: prologue, then `WIDTHBIO`, `LINBIO x, y, z`, `EXTSPAN`, `CHKPAL` (R143). -/
def execGetbio (x y z : BitVec 4) (s : State) : Host.Outcome State Fault Refusal :=
  (lookupPrologue s fun s =>
    (((microWidthbio s).andThen (microLinbio x y z)).andThen microExtspan).andThen microChkpal).outcome

end Sys2Proof.Machine
end

