-- ==== Sys2Proof/Machine/Dispatch.lean ====
section
/-! DEFINITION. The dispatch of commands to their meanings, one arm per constructor of `Instr` (R84). -/

namespace Sys2Proof.Machine

def exec (i : Instr) (s : State) : Host.Outcome State Fault Refusal :=
  match i with
  | .nop => Sys2Proof.Machine.execNop s
  | .clr => Sys2Proof.Machine.execClr s
  | .widthbs => Sys2Proof.Machine.execWidthbs s
  | .widthbio => Sys2Proof.Machine.execWidthbio s
  | .linbs x y z => Sys2Proof.Machine.execLinbs x y z s
  | .linbio x y z => Sys2Proof.Machine.execLinbio x y z s
  | .extpad => Sys2Proof.Machine.execExtpad s
  | .extspan => Sys2Proof.Machine.execExtspan s
  | .getbs x y z => Sys2Proof.Machine.execGetbs x y z s
  | .getbio x y z => Sys2Proof.Machine.execGetbio x y z s
  | .chkpal => Sys2Proof.Machine.execChkpal s
  | .hmget => Sys2Proof.Machine.execHmget s
  | .hmlen => Sys2Proof.Machine.execHmlen s

end Sys2Proof.Machine
end

