-- ==== Sys2Proof/Machine/Transactions.lean ====
section
/-! DEFINITION. The host's transactions, each one atomic step of the unit (R5, R29, R66, R200). -/

namespace Sys2Proof.Machine

/-- Issue a command word: decode it and execute it in the same step; an illegal word faults with `E_ILLCMD` before
anything executes and changes nothing else (R29, R86, R176). -/
def issueCommand (c : CommandWord) (s : State) : Host.Outcome State Fault Refusal :=
  match decode c with
  | .ok i => exec i s
  | .error _ => .next (s.raiseFault .illCmd)

/-- `CsrWrite(n, v)`: register 7 executes a command, any other is stored to (R21, R29). -/
def csrWriteTransaction (n : Nat) (v : CsrWord) (s : State) : Host.Outcome State Fault Refusal :=
  if n = Config.cmdNumber then issueCommand v (s.setReply .ack)
  else .next ((csrStore n v s).setReply .ack)

/-- `WmemRead(a)`: word `a`; 0 for `a` at 2048 or above; refused for a word nothing has written (R31, R32). -/
def wmemReadTransaction (a : Nat) (s : State) : Host.Outcome State Fault Refusal :=
  if a < Config.wmemWords then
    match s.wmem.read a with
    | some v => .next (s.setReply (.word v))
    | none => .refused (.unwrittenWord a)
  else .next (s.setReply (.word 0))

/-- `Reset`: every register takes its reset value and every word counts as never written; what the host has yet to
issue stays the host's (R200; log entry 5). -/
def resetTransaction (s : State) : Host.Outcome State Fault Refusal :=
  .next { State.reset with pending := s.pending }

/-- One transaction, whole (R5, R66). -/
def runTransaction (t : Transaction) (s : State) : Host.Outcome State Fault Refusal :=
  match t with
  | .csrWrite n v => csrWriteTransaction n v s
  | .csrRead n => .next (s.setReply (.csr (csrValue n s)))
  | .wmemWrite a v => .next ((wmemStore a v s).setReply .ack)
  | .wmemRead a => wmemReadTransaction a s
  | .reset => resetTransaction s

/-- Take the host's next transaction, in issue order (R68); with none waiting the unit is idle and nothing changes
(R201; log entry 6). -/
def takeTransaction (s : State) : Host.Outcome State Fault Refusal :=
  match s.pending with
  | [] => .next s
  | t :: rest => runTransaction t { s with pending := rest }

/-- The host's next transaction becomes the issue of the command word whose opcode-table bits are `w` (R29, R33;
log entry 3). -/
def State.issueNext (s : State) (nbits w : Nat) : State :=
  { s with pending := .csrWrite Config.cmdNumber (BitVec.ofNat 32 (w % 2 ^ nbits)) :: s.pending }

end Sys2Proof.Machine
end

