-- ==== Sys2Proof/Machine/Step.lean ====
section
/-! DEFINITION. One step of the machine: one host transaction (R5). -/

namespace Sys2Proof.Machine

/-- One step: the unit takes the host's next transaction (R5, R68, R201). -/
def step (s : State) : Host.Outcome State Fault Refusal := takeTransaction s

/-- `s` with the command of the opcode-table bits `w` as the host's next transaction, so that the very next step runs
it. The unit does not fetch (R33): a command is the data of a `CsrWrite` to `CMD` (log entry 3). -/
def State.withFetchWord (s : State) (nbits w : Nat) : State := s.issueNext nbits w

end Sys2Proof.Machine
end

