-- ==== Sys2Proof/Machine/Assembly.lean ====
section
/-! DEFINITION. The assembler text of commands, host transactions and pseudo-instructions, and the program it stands
for: a list of host transactions (R89 to R92). Lines are lists of characters; what the text leaves open is log
entry 13. -/

namespace Sys2Proof.Machine

/-- A piece of a line: a run of characters without blanks or commas, or a comma. -/
inductive Token where
  | text (cs : List Char)
  | comma
  deriving DecidableEq, Repr

/-- A blank: space, tab or carriage return. -/
def isBlank (c : Char) : Bool := c == ' ' || c == '\t' || c == '\r'

/-- The token held so far, if any; `held` is reversed. -/
def flushToken (held : List Char) (rest : List Token) : List Token :=
  if held.isEmpty then rest else .text held.reverse :: rest

/-- The tokens of a line; a `;` starts a comment to the end of the line (R89). -/
def tokens (held : List Char) : List Char → List Token
  | [] => flushToken held []
  | c :: cs =>
    if c == ';' then flushToken held []
    else if isBlank c then flushToken held (tokens [] cs)
    else if c == ',' then flushToken held (.comma :: tokens [] cs)
    else tokens (c :: held) cs

/-- The tokens that stand for the transaction: in a listing the reply is written after `->` (R90). -/
def statementTokens (line : List Char) : List Token :=
  (tokens [] line).takeWhile (fun t => t != .text ['-', '>'])

/-- The operands of a line, written with commas between them (R89, R90, R92). -/
def operandTexts : List Token → Option (List (List Char))
  | [] => some []
  | [.text w] => some [w]
  | .text w :: .comma :: ts =>
    match operandTexts ts with
    | some (r :: rs) => some (w :: r :: rs)
    | _ => none
  | _ => none

/-- The value of a hexadecimal digit of either case. -/
def digitValue (c : Char) : Option Nat :=
  let n := c.toNat
  if 48 ≤ n ∧ n ≤ 57 then some (n - 48)
  else if 65 ≤ n ∧ n ≤ 70 then some (n - 55)
  else if 97 ≤ n ∧ n ≤ 102 then some (n - 87)
  else none

/-- The digits of a number in a base, from the most significant, onto what stands before them. -/
def digitsValue (base : Nat) : Nat → List Char → Option Nat
  | acc, [] => some acc
  | acc, c :: cs =>
    match digitValue c with
    | some d => if d < base then digitsValue base (acc * base + d) cs else none
    | none => none

/-- A decimal integer, or a hexadecimal one with `0x` before it (R89). -/
def numberOf (cs : List Char) : Option Nat :=
  match cs with
  | [] => none
  | '0' :: 'x' :: [] => none
  | '0' :: 'x' :: d :: ds => digitsValue 16 0 (d :: ds)
  | d :: ds => digitsValue 10 0 (d :: ds)

/-- A number below a bound. -/
def numberBelow (bound : Nat) (cs : List Char) : Option Nat :=
  match numberOf cs with
  | some n => if n < bound then some n else none
  | none => none

/-- The numbers of a list of operands, each below a bound. -/
def numbersBelow (bound : Nat) : List (List Char) → Option (List Nat)
  | [] => some []
  | w :: ws =>
    match numberBelow bound w, numbersBelow bound ws with
    | some n, some ns => some (n :: ns)
    | _, _ => none

/-- The register names of R20 with their numbers. -/
def csrNames : List (List Char × Nat) :=
  [(['P', 'L', 'E', 'N'], 0),
   (['D', 'L', 'E', 'N'], 1),
   (['W', 'I', 'D', 'T', 'H'], 2),
   (['I', 'D', 'X'], 3),
   (['R', 'E', 'S', 'U', 'L', 'T'], 4),
   (['S', 'T', 'A', 'T', 'U', 'S'], 5),
   (['C', 'T', 'R', 'L'], 6),
   (['C', 'M', 'D'], 7)]

/-- The register an operand names: by name (R90), or by number as 95_test_vectors.md section 2.9 writes `csrr 8`. -/
def csrNumber (w : List Char) : Option Nat :=
  match csrNames.lookup w with
  | some n => some n
  | none => numberOf w

/-- The format N mnemonics (R89). -/
def mnemonicsN : List (List Char × Instr) :=
  [(['N', 'O', 'P'], .nop),
   (['C', 'L', 'R'], .clr),
   (['W', 'I', 'D', 'T', 'H', 'B', 'S'], .widthbs),
   (['W', 'I', 'D', 'T', 'H', 'B', 'I', 'O'], .widthbio),
   (['E', 'X', 'T', 'P', 'A', 'D'], .extpad),
   (['E', 'X', 'T', 'S', 'P', 'A', 'N'], .extspan),
   (['C', 'H', 'K', 'P', 'A', 'L'], .chkpal),
   (['H', 'M', 'G', 'E', 'T'], .hmget),
   (['H', 'M', 'L', 'E', 'N'], .hmlen)]

/-- The command a format C mnemonic makes of its coordinates x, y, z (R89). -/
def commandC (m : List Char) (x y z : BitVec 4) : Option Instr :=
  if m = ['L', 'I', 'N', 'B', 'S'] then some (.linbs x y z)
  else if m = ['L', 'I', 'N', 'B', 'I', 'O'] then some (.linbio x y z)
  else if m = ['G', 'E', 'T', 'B', 'S'] then some (.getbs x y z)
  else if m = ['G', 'E', 'T', 'B', 'I', 'O'] then some (.getbio x y z)
  else none

/-- The command written by a mnemonic and its operands: none for format N, the coordinates x, y, z, each 0 to 15, for
format C (R89). -/
def commandOf (m : List Char) (ops : List (List Char)) : Option Instr :=
  match ops with
  | [] => mnemonicsN.lookup m
  | _ =>
    match numbersBelow 16 ops with
    | some [x, y, z] => commandC m (BitVec.ofNat 4 x) (BitVec.ofNat 4 y) (BitVec.ofNat 4 z)
    | _ => none

/-- A command mnemonic on a line by itself stands for `csrw CMD, <its encoding>` (R90). -/
def issueOf (i : Instr) : Transaction := .csrWrite Config.cmdNumber (encode i)

/-- `load a, v0, ..., vk`: one `wmw` a word, from word `a` up (R92). -/
def loadWords : Nat → List Nat → List Transaction
  | _, [] => []
  | a, v :: vs => .wmemWrite a (BitVec.ofNat 64 v) :: loadWords (a + 1) vs

/-- `array v0, ..., vk`: the words from word 0 up, then `csrw DLEN, k+1` (R92), for fewer than `2^32` values, as `arrayOf`
makes sure. -/
def arrayWords (vs : List Nat) : List Transaction :=
  loadWords 0 vs ++ [.csrWrite 1 (BitVec.ofNat 32 vs.length)]

/-- `csrw NAME, v` with `v` a 32-bit integer (R90). -/
def csrwOf : List (List Char) → Option (List Transaction)
  | [name, v] =>
    match csrNumber name, numberBelow (2 ^ 32) v with
    | some n, some k => some [.csrWrite n (BitVec.ofNat 32 k)]
    | _, _ => none
  | _ => none

/-- `csrr NAME` (R90). -/
def csrrOf : List (List Char) → Option (List Transaction)
  | [name] => (csrNumber name).map fun n => [.csrRead n]
  | _ => none

/-- `wmw a, v` with `v` a 64-bit integer (R90). -/
def wmwOf : List (List Char) → Option (List Transaction)
  | [a, v] =>
    match numberOf a, numberBelow (2 ^ 64) v with
    | some n, some k => some [.wmemWrite n (BitVec.ofNat 64 k)]
    | _, _ => none
  | _ => none

/-- `wmr a` (R90). -/
def wmrOf : List (List Char) → Option (List Transaction)
  | [a] => (numberOf a).map fun n => [.wmemRead n]
  | _ => none

/-- `load a, v0, ..., vk` (R92). -/
def loadOf : List (List Char) → Option (List Transaction)
  | a :: v :: vs =>
    match numberOf a, numbersBelow (2 ^ 64) (v :: vs) with
    | some n, some ks => some (loadWords n ks)
    | _, _ => none
  | _ => none

/-- `array v0, ..., vk`, or `array` alone for an absent array (R92). DESIGN CHOICE (log entry 13): with `2^32` values or
more the expansion `csrw DLEN, k+1` has no 32-bit value (R90) and the spec gives none, so the line is no program. -/
def arrayOf (ops : List (List Char)) : Option (List Transaction) :=
  match numbersBelow (2 ^ 64) ops with
  | some vs => if vs.length < 2 ^ 32 then some (arrayWords vs) else none
  | none => none

/-- The transactions a line stands for; an empty line stands for none (R89, R90, R92). -/
def assembleLine (line : List Char) : Option (List Transaction) :=
  match statementTokens line with
  | [] => some []
  | .comma :: _ => none
  | .text m :: ts =>
    match operandTexts ts with
    | none => none
    | some ops =>
      if m = ['c', 's', 'r', 'w'] then csrwOf ops
      else if m = ['c', 's', 'r', 'r'] then csrrOf ops
      else if m = ['w', 'm', 'w'] then wmwOf ops
      else if m = ['w', 'm', 'r'] then wmrOf ops
      else if m = ['l', 'o', 'a', 'd'] then loadOf ops
      else if m = ['a', 'r', 'r', 'a', 'y'] then arrayOf ops
      else (commandOf m ops).map fun i => [issueOf i]

/-- The program a text stands for: its lines' transactions in order (R91). -/
def assemble : List (List Char) → Option (List Transaction)
  | [] => some []
  | l :: ls =>
    match assembleLine l, assemble ls with
    | some ts, some rest => some (ts ++ rest)
    | _, _ => none

/-- `s` with a program as the host's transactions (R91). -/
def State.withProgram (s : State) (p : List Transaction) : State := { s with pending := p }

/-- A coordinate in decimal. -/
def coordinateText (n : BitVec 4) : List Char :=
  if n.toNat < 10 then [Char.ofNat (48 + n.toNat)] else ['1', Char.ofNat (38 + n.toNat)]

/-- The operands x, y, z of a format C command (R89). -/
def coordinatesText (x y z : BitVec 4) : List Char :=
  [' '] ++ coordinateText x ++ [',', ' '] ++ coordinateText y ++ [',', ' '] ++ coordinateText z

/-- The assembler text of a command (R89). -/
def commandText : Instr → List Char
  | .nop => ['N', 'O', 'P']
  | .clr => ['C', 'L', 'R']
  | .widthbs => ['W', 'I', 'D', 'T', 'H', 'B', 'S']
  | .widthbio => ['W', 'I', 'D', 'T', 'H', 'B', 'I', 'O']
  | .linbs x y z => ['L', 'I', 'N', 'B', 'S'] ++ coordinatesText x y z
  | .linbio x y z => ['L', 'I', 'N', 'B', 'I', 'O'] ++ coordinatesText x y z
  | .extpad => ['E', 'X', 'T', 'P', 'A', 'D']
  | .extspan => ['E', 'X', 'T', 'S', 'P', 'A', 'N']
  | .getbs x y z => ['G', 'E', 'T', 'B', 'S'] ++ coordinatesText x y z
  | .getbio x y z => ['G', 'E', 'T', 'B', 'I', 'O'] ++ coordinatesText x y z
  | .chkpal => ['C', 'H', 'K', 'P', 'A', 'L']
  | .hmget => ['H', 'M', 'G', 'E', 'T']
  | .hmlen => ['H', 'M', 'L', 'E', 'N']

end Sys2Proof.Machine
end

