-- ==== Sys2Proof/Machine/HostView.lean ====
section
/-! DEFINITION. What the host may conclude from `STATUS`: the source's error categories (R172) and the host's duties
on reading it (R186). Nothing in the unit reads these. -/

namespace Sys2Proof.Machine

/-- The source's error categories that the unit's outcomes map to (R172). `UnsupportedEncoding` is never produced. -/
inductive Category where
  /-- `OutOfRange`: palette index at or beyond the palette length. -/
  | outOfRange
  /-- `FormatError`: truncated array, or a corrupt section with an empty palette. -/
  | formatError
  /-- `AbsentData`, which is not an error. -/
  | absentData
  /-- No counterpart in the source: a host programming error, or no failure. -/
  | noCategory
  deriving DecidableEq, Repr

/-- The source category of an outcome (R172). The codes 7 to 15 are never produced and have none (R171; log
entry 20). -/
def Status.category (st : Status) : Category :=
  if st.err = FaultCode.range.code then .outOfRange
  else if st.err = FaultCode.trunc.code ∨ st.err = FaultCode.plen.code then .formatError
  else if st.err = 0 ∧ st.absent then .absentData
  else .noCategory

/-- How the host reads the outcome of a command (R186). -/
inductive Reading where
  /-- `ERR` is not 0: the command failed and `RESULT` is not to be used. -/
  | failed (err : BitVec 4)
  /-- `ERR = 0`, `VALID = 1`: `RESULT` is the answer; `default` says that it is the default for absent data. -/
  | answer (default : Bool)
  /-- `ERR = 0`, `VALID = 0`: no value was produced; `unavailable` says that the heightmap is unavailable. -/
  | noValue (unavailable : Bool)
  deriving DecidableEq, Repr

/-- The host's reading of `STATUS` (R186). -/
def Status.reading (st : Status) : Reading :=
  if st.err ≠ 0 then .failed st.err
  else if st.valid then .answer st.absent
  else .noValue st.absent

end Sys2Proof.Machine
end

