-- ==== Sys2Proof/Safety.lean ====
section
/-! DEFINITION. The terms in which claims speak of runs: legal states, loaded arrays, sequences of commands, and the
layouts stated from the words alone. -/

namespace Sys2Proof.Machine

/-- `STATUS` as some command can leave it: a fault code 1 to 6 alone, or no error with one of the flag combinations of
R34 (R27, R171, R175). -/
def Status.legal (st : Status) : Bool :=
  if st.err = 0 then !st.spanned || (st.valid && !st.absent)
  else decide (st.err.toNat ≤ 6) && !st.valid && !st.absent && !st.spanned

/-- A state some run can be in: `DLEN` at most 2048 (R23), `STATUS` legal, the word memory in canonical form. -/
abbrev State.wf (s : State) : Prop :=
  s.dlen.toNat ≤ Config.wmemWords ∧ s.status.legal = true ∧ s.wmem.wf

/-- The host's duty of R203 that a command's reads depend on: every word below `DLEN` has been written. -/
def State.loaded (s : State) : Prop := ∀ a < s.dlen.toNat, (s.wmem.read a).isSome

/-- Word `a` as a number, 0 where nothing has written it; claims use it under hypotheses that rule that out. -/
def State.wordNat (s : State) (a : Nat) : Nat := ((s.wmem.read a).getD 0).toNat

/-- The number `B` of R125 over the first `n` words: the sum of `WMEM[j] * 2^(64*j)` for `j < n`. -/
def State.bitString (s : State) : Nat → Nat
  | 0 => 0
  | n + 1 => s.bitString n + s.wordNat n * 2 ^ (64 * n)

/-- Field `k` of the heightmap, from the words alone (R150). -/
def State.heightField (s : State) (k : Nat) : Nat := s.wordNat (k / 7) / 2 ^ (9 * (k % 7)) % 512

/-- The padded layout's word number `j` holding the field values `vs` of width `w`: fields `j*fpw` up, `fpw = 64 div w`
to a word, least significant first (R120; 95_test_vectors.md S12). -/
def paddedWord (w : Nat) (vs : List Nat) (j : Nat) : Nat :=
  Nat.ofDigits (2 ^ w) ((vs.drop (j * (64 / w))).take (64 / w))

/-- Which command can raise which fault (R173); `E_ILLCMD` belongs to no command. -/
def canRaise (i : Instr) (e : FaultCode) : Bool :=
  match i with
  | .nop | .clr | .linbs _ _ _ | .linbio _ _ _ | .hmlen => false
  | .widthbs | .widthbio => e == .plen
  | .extpad | .extspan => e == .width || e == .trunc
  | .chkpal => e == .range
  | .getbs _ _ _ | .getbio _ _ _ => e == .plen || e == .trunc || e == .range
  | .hmget => e == .noField

/-- Which command may write register `n`: the column 'Written by the unit' of R20. -/
def mayWriteCsr (n : Nat) (i : Instr) : Bool :=
  match n with
  | 0 | 1 | 6 => i == .clr
  | 2 => i.mnemonic ∈ ["WIDTHBS", "WIDTHBIO", "GETBS", "GETBIO", "CLR"]
  | 3 => i.mnemonic ∈ ["LINBS", "LINBIO", "GETBS", "GETBIO", "CLR"]
  | 4 => i.mnemonic ∈ ["EXTPAD", "EXTSPAN", "GETBS", "GETBIO", "HMGET", "HMLEN", "CLR"]
  | 5 => i != .nop
  | _ => false

/-- The transaction can change register `n`: a host write to it, a command that may write it (an illegal word writes
`STATUS`, R86), or `Reset` (R20, R21, R200). -/
def Transaction.writesCsr (n : Nat) : Transaction → Bool
  | .csrWrite m c =>
    if m = Config.cmdNumber then
      match decode c with
      | .ok i => mayWriteCsr n i
      | .error _ => n == 5
    else m == n
  | .reset => true
  | .csrRead _ | .wmemWrite _ _ | .wmemRead _ => false

/-- The transaction can change word `a`: a `WmemWrite` to it, or `Reset` (R7, R31, R200). -/
def Transaction.writesWord (a : Nat) : Transaction → Bool
  | .wmemWrite b _ => b == a
  | .reset => true
  | .csrWrite _ _ | .csrRead _ | .wmemRead _ => false

/-- Commands issued one after another by a host that stops at the first one that faults (R140). -/
def runUntilFault : List Instr → State → Host.Outcome State Fault Refusal
  | [], s => .next s
  | i :: is, s =>
    match exec i s with
    | .next t => if t.status.err = 0 then runUntilFault is t else .next t
    | .fault f => .fault f
    | .refused r => .refused r

/-- What a command takes as its input besides its own word: every register and the words below `DLEN` (R6, R63). Two
states that agree so may differ in words at or above `DLEN`. -/
def State.sameInput (s t : State) : Prop :=
  t = { s with wmem := t.wmem } ∧ ∀ a < s.dlen.toNat, t.wmem.read a = s.wmem.read a

end Sys2Proof.Machine
end

