-- ==== Sys2Proof/Certificates/Slice0/Obligations.lean ====
section
/-! DEFINITION. The statements for the provers, from the numbered rules of spec/. -/

open Sys2Proof Sys2Proof.Machine

/-! ## Encoding -/

/-- Decoding the word of a command gives the command, with every operand (30_encoding.md section 4). -/
def Obligations.DecodeOfEncode : Prop := ∀ i : Instr, decode (encode i) = .ok i

/-- A legal word is the word of the command it decodes to, so no two legal words mean the same (30_encoding.md
section 4). -/
def Obligations.EncodeOfDecode : Prop := ∀ (c : CommandWord) (i : Instr), decode c = .ok i → encode i = c

/-- R84: the thirteen rows with their opcodes and formats; a word is a row's command exactly when the word under the
row's mask is the row's match; and no legal word is outside the rows. -/
def Obligations.DecodeByMatchAndMask : Prop :=
  (opcodeRows.map (fun r => (r.mnemonic, r.pattern.toNat, r.mask.toNat)) =
    [("NOP", 0x0 * 2 ^ 28, 0xFFFFFFFF), ("CLR", 0x1 * 2 ^ 28, 0xFFFFFFFF), ("WIDTHBS", 0x2 * 2 ^ 28, 0xFFFFFFFF),
     ("WIDTHBIO", 0x3 * 2 ^ 28, 0xFFFFFFFF), ("LINBS", 0x4 * 2 ^ 28, 0xFFFFF000), ("LINBIO", 0x5 * 2 ^ 28, 0xFFFFF000),
     ("EXTPAD", 0x6 * 2 ^ 28, 0xFFFFFFFF), ("EXTSPAN", 0x7 * 2 ^ 28, 0xFFFFFFFF), ("GETBS", 0x8 * 2 ^ 28, 0xFFFFF000),
     ("GETBIO", 0x9 * 2 ^ 28, 0xFFFFF000), ("CHKPAL", 0xA * 2 ^ 28, 0xFFFFFFFF), ("HMGET", 0xC * 2 ^ 28, 0xFFFFFFFF),
     ("HMLEN", 0xD * 2 ^ 28, 0xFFFFFFFF)]) ∧
  (∀ r ∈ opcodeRows, ∀ c : CommandWord,
    (∃ i, decode c = .ok i ∧ i.mnemonic = r.mnemonic) ↔ c &&& r.mask = r.pattern) ∧
  ∀ (c : CommandWord) (i : Instr), decode c = .ok i → legalWord c = true

/-- R86: a word is illegal exactly when its opcode is reserved or a reserved bit of its format is set, and issuing an
illegal word writes `E_ILLCMD` to `STATUS` and changes nothing else of the unit. `pending` and `reply`, which take the
transaction off the queue and acknowledge it, are the model's own fields (log entries 3 and 4). -/
def Obligations.IllegalWordsExactly : Prop :=
  (∀ c : CommandWord, (∃ e, decode c = .error e) ↔
    (c.toNat / 2 ^ 28 ∈ [0xB, 0xE, 0xF] ∨
      (c.toNat / 2 ^ 28 ∈ [0x0, 0x1, 0x2, 0x3, 0x6, 0x7, 0xA, 0xC, 0xD] ∧ c.toNat % 2 ^ 28 ≠ 0) ∨
      (c.toNat / 2 ^ 28 ∈ [0x4, 0x5, 0x8, 0x9] ∧ c.toNat / 2 ^ 12 % 2 ^ 16 ≠ 0))) ∧
  ∀ (c : CommandWord) (s : State) (rest : List Transaction) (e : Illegal),
    s.pending = .csrWrite 7 c :: rest → decode c = .error e →
      step s = .next { s with pending := rest, reply := .ack, status := ⟨1, false, false, false⟩ }

/-- The coordinates of a format C word are its three low nibbles, `x = c[3:0]`, `z = c[7:4]`, `y = c[11:8]`
(30_encoding.md sections 1 and 2). -/
def Obligations.CoordinatesAreNibbles : Prop :=
  ∀ x y z : Nat, x < 16 → y < 16 → z < 16 →
    decode (BitVec.ofNat 32 (0x40000000 + y * 256 + z * 16 + x)) =
      .ok (.linbs (BitVec.ofNat 4 x) (BitVec.ofNat 4 y) (BitVec.ofNat 4 z)) ∧
    decode (BitVec.ofNat 32 (0x50000000 + y * 256 + z * 16 + x)) =
      .ok (.linbio (BitVec.ofNat 4 x) (BitVec.ofNat 4 y) (BitVec.ofNat 4 z)) ∧
    decode (BitVec.ofNat 32 (0x80000000 + y * 256 + z * 16 + x)) =
      .ok (.getbs (BitVec.ofNat 4 x) (BitVec.ofNat 4 y) (BitVec.ofNat 4 z)) ∧
    decode (BitVec.ofNat 32 (0x90000000 + y * 256 + z * 16 + x)) =
      .ok (.getbio (BitVec.ofNat 4 x) (BitVec.ofNat 4 y) (BitVec.ofNat 4 z))

/-- From R85: for the opcodes 0x2 to 0x9, bit 28 is the policy and bits 31..29 the operation. -/
def Obligations.PolicyBitOfOpcode : Prop :=
  ∀ x y z : BitVec 4,
    ((encode .widthbs).toNat / 2 ^ 28 % 2 = 0 ∧ (encode (.linbs x y z)).toNat / 2 ^ 28 % 2 = 0 ∧
      (encode .extpad).toNat / 2 ^ 28 % 2 = 0 ∧ (encode (.getbs x y z)).toNat / 2 ^ 28 % 2 = 0) ∧
    ((encode .widthbio).toNat / 2 ^ 28 % 2 = 1 ∧ (encode (.linbio x y z)).toNat / 2 ^ 28 % 2 = 1 ∧
      (encode .extspan).toNat / 2 ^ 28 % 2 = 1 ∧ (encode (.getbio x y z)).toNat / 2 ^ 28 % 2 = 1) ∧
    ((encode .widthbs).toNat / 2 ^ 29 = 1 ∧ (encode .widthbio).toNat / 2 ^ 29 = 1 ∧
      (encode (.linbs x y z)).toNat / 2 ^ 29 = 2 ∧ (encode (.linbio x y z)).toNat / 2 ^ 29 = 2 ∧
      (encode .extpad).toNat / 2 ^ 29 = 3 ∧ (encode .extspan).toNat / 2 ^ 29 = 3 ∧
      (encode (.getbs x y z)).toNat / 2 ^ 29 = 4 ∧ (encode (.getbio x y z)).toNat / 2 ^ 29 = 4)

/-- A word of every family, written out from the bit patterns of 30_encoding.md section 6, decodes to its command. -/
def Obligations.SampleWordsDecode : Prop :=
  decode 0b00000000000000000000000000000000#32 = .ok .nop ∧
  decode 0b00110000000000000000000000000000#32 = .ok .widthbio ∧
  decode 0b01000000000000000000011111000011#32 = .ok (.linbs 3 7 12) ∧
  decode 0b01110000000000000000000000000000#32 = .ok .extspan ∧
  decode 0b10010000000000000000111110001100#32 = .ok (.getbio 12 15 8) ∧
  decode 0b11010000000000000000000000000000#32 = .ok .hmlen

/-- The assembler text of a command stands for the issue of its word (30_encoding.md section 5). -/
def Obligations.AssembleCommandText : Prop :=
  ∀ i : Instr, assembleLine (commandText i) = some [.csrWrite 7 (encode i)]

/-! ## Transactions

`pending` and `reply` are the model's own fields (log entries 3 and 4): a step takes the head of `pending` and leaves
the transaction's reply in `reply`. -/

/-- R29: `CsrWrite(7, c)` with a legal word executes the command in the same step, on the state with the transaction
taken; with an illegal word it records `E_ILLCMD`; reading `CMD` gives 0 and changes no register. -/
def Obligations.StepRunsDecodedCommand : Prop :=
  (∀ (s : State) (rest : List Transaction) (c : CommandWord) (i : Instr),
    s.pending = .csrWrite 7 c :: rest → decode c = .ok i →
      step s = exec i { s with pending := rest, reply := .ack }) ∧
  (∀ (s : State) (rest : List Transaction) (c : CommandWord) (e : Illegal),
    s.pending = .csrWrite 7 c :: rest → decode c = .error e →
      step s = .next { s with pending := rest, reply := .ack, status := ⟨1, false, false, false⟩ }) ∧
  ∀ (s : State) (rest : List Transaction), s.pending = .csrRead 7 :: rest →
    step s = .next { s with pending := rest, reply := .csr 0 }

/-- `CsrRead(n)` replies with the register zero-extended, `STATUS` with its fields at their bit positions, and
changes no register and no word (10_state.md section 1). -/
def Obligations.CsrReadRepliesRegister : Prop :=
  ∀ (s : State) (rest : List Transaction) (n : Nat), s.pending = .csrRead n :: rest →
    step s = .next { s with
      pending := rest
      reply := .csr (
        if n = 0 then s.plen
        else if n = 1 then BitVec.ofNat 32 s.dlen.toNat
        else if n = 2 then BitVec.ofNat 32 s.width.toNat
        else if n = 3 then s.idx
        else if n = 4 then s.result
        else if n = 5 then BitVec.ofNat 32 (s.status.err.toNat + 16 * s.status.valid.toNat +
          32 * s.status.absent.toNat + 64 * s.status.spanned.toNat)
        else if n = 6 then BitVec.ofNat 32 s.ctrl.toNat
        else 0) }

/-- `CsrWrite(n, v)` to a register other than `CMD` stores as the register's rule says and changes nothing else;
`RESULT` and `STATUS` ignore it (10_state.md section 1). -/
def Obligations.CsrWriteStoresRegister : Prop :=
  ∀ (s : State) (rest : List Transaction) (n : Nat) (v : CsrWord),
    s.pending = .csrWrite n v :: rest → n ≠ 7 →
      ∃ t, step s = .next t ∧
        t = { s with
          pending := rest
          reply := .ack
          plen := if n = 0 then v else s.plen
          dlen := t.dlen
          width := t.width
          idx := if n = 3 then v else s.idx
          ctrl := t.ctrl } ∧
        t.dlen.toNat = (if n = 1 then min v.toNat 2048 else s.dlen.toNat) ∧
        t.width.toNat = (if n = 2 then min v.toNat 63 else s.width.toNat) ∧
        t.ctrl.toNat = (if n = 6 then v.toNat % 2 else s.ctrl.toNat)

/-- R30: register numbers 8 and above read 0, ignore writes, and change no state of the unit. -/
def Obligations.NonexistentRegisters : Prop :=
  ∀ (s : State) (rest : List Transaction) (n : Nat), 8 ≤ n →
    (s.pending = .csrRead n :: rest → step s = .next { s with pending := rest, reply := .csr 0 }) ∧
    ∀ v, s.pending = .csrWrite n v :: rest → step s = .next { s with pending := rest, reply := .ack }

/-- `WmemWrite(a, v)` changes word `a` alone, and nothing for `a` at 2048 or above (10_state.md section 2). -/
def Obligations.WmemWriteChangesOneWord : Prop :=
  ∀ (s : State) (rest : List Transaction) (a : Nat) (v : Word), s.pending = .wmemWrite a v :: rest →
    ∃ t, step s = .next t ∧ t = { s with pending := rest, reply := .ack, wmem := t.wmem } ∧
      (a < 2048 → t.wmem.read a = some v ∧ ∀ b, b ≠ a → t.wmem.read b = s.wmem.read b) ∧
      (2048 ≤ a → t.wmem = s.wmem)

/-- `WmemRead(a)` replies with word `a`, with 0 for `a` at 2048 or above, and changes nothing (10_state.md section
2). -/
def Obligations.WmemReadRepliesWord : Prop :=
  ∀ (s : State) (rest : List Transaction) (a : Nat), s.pending = .wmemRead a :: rest →
    (∀ v, a < 2048 → s.wmem.read a = some v → step s = .next { s with pending := rest, reply := .word v }) ∧
    (2048 ≤ a → step s = .next { s with pending := rest, reply := .word 0 })

/-- A read returns the latest earlier write, whatever the host does in between that does not write the same place
(20_memory.md section 4): a word, to the host and to a command's read; a register the host wrote; a register after
`Reset`; and a register as any earlier step left it. The runs in between are those that answer. -/
def Obligations.ReadReturnsLatestWrite : Prop :=
  (∀ (s u : State) (mid rest : List Transaction) (a : Nat) (v : Word), a < 2048 →
    s.pending = .wmemWrite a v :: mid ++ .wmemRead a :: rest → (∀ tr ∈ mid, tr.writesWord a = false) →
    core.run (mid.length + 1) s = .next u →
      (a < u.dlen.toNat → memRead u a = .ok v) ∧
      ∃ t, core.run (mid.length + 2) s = .next t ∧ t.reply = .word v ∧ t.pending = rest) ∧
  (∀ (s u : State) (mid rest : List Transaction) (n : Nat) (v : CsrWord), n ∈ [0, 1, 2, 3, 6] →
    s.pending = .csrWrite n v :: mid ++ .csrRead n :: rest → (∀ tr ∈ mid, tr.writesCsr n = false) →
    core.run (mid.length + 1) s = .next u →
      ∃ t, core.run (mid.length + 2) s = .next t ∧ t.pending = rest ∧ t.reply = .csr (
        if n = 1 then BitVec.ofNat 32 (min v.toNat 2048)
        else if n = 2 then BitVec.ofNat 32 (min v.toNat 63)
        else if n = 6 then BitVec.ofNat 32 (v.toNat % 2)
        else v)) ∧
  (∀ (s u : State) (mid rest : List Transaction) (n : Nat),
    s.pending = .reset :: mid ++ .csrRead n :: rest → (∀ tr ∈ mid, tr.writesCsr n = false) →
    core.run (mid.length + 1) s = .next u →
      ∃ t, core.run (mid.length + 2) s = .next t ∧ t.reply = .csr 0 ∧ t.pending = rest) ∧
  ∀ (s u : State) (mid rest : List Transaction) (n : Nat),
    s.pending = mid ++ .csrRead n :: rest → (∀ tr ∈ mid, tr.writesCsr n = false) →
    core.run mid.length s = .next u →
      ∃ t, core.run (mid.length + 1) s = .next t ∧ t.reply = .csr (csrValue n s) ∧ t.pending = rest

/-- R32 as the model takes it (log entry 2): after reset no word has a value, `CLR` keeps the words, and a `WmemRead`
of a word nothing has written is refused by name. -/
def Obligations.UnwrittenWordIsRefused : Prop :=
  (∀ a, State.reset.wmem.read a = none) ∧
  (∀ s : State, ∃ t, exec .clr s = .next t ∧ t.wmem = s.wmem) ∧
  ∀ (s : State) (rest : List Transaction) (a : Nat), s.pending = .wmemRead a :: rest → a < 2048 →
    s.wmem.read a = none → step s = .refused (.unwrittenWord a)

/-- R200: `Reset` leaves every register 0 and every word never written, and differs from `CLR` in the words only; the
model's own two fields are left to `IdleAndResetKeepQueue`. -/
def Obligations.ResetAndClr : Prop :=
  (∀ (s : State) (rest : List Transaction), s.pending = .reset :: rest →
    ∃ t, step s = .next t ∧ t = { State.reset with pending := t.pending, reply := t.reply }) ∧
  ∀ s : State, exec .clr s =
    .next { State.reset with wmem := s.wmem, pending := s.pending, reply := s.reply }

/-- R36: every register is 0 after reset, and with these values the unit is harmless until configured. -/
def Obligations.ResetValues : Prop :=
  (State.reset.plen = 0 ∧ State.reset.dlen = 0 ∧ State.reset.width = 0 ∧ State.reset.idx = 0 ∧
    State.reset.result = 0 ∧ State.reset.status = ⟨0, false, false, false⟩ ∧ State.reset.ctrl = 0 ∧
    State.reset.wmem = []) ∧
  (∀ x y z : BitVec 4,
    exec (.getbs x y z) State.reset = .next { State.reset with status := ⟨2, false, false, false⟩ } ∧
    exec (.getbio x y z) State.reset = .next { State.reset with status := ⟨2, false, false, false⟩ }) ∧
  exec .extpad State.reset = .next { State.reset with status := ⟨3, false, false, false⟩ } ∧
  exec .extspan State.reset = .next { State.reset with status := ⟨4, false, false, false⟩ } ∧
  exec .hmget State.reset = .next { State.reset with status := ⟨0, false, true, false⟩ } ∧
  exec .hmlen State.reset = .next { State.reset with status := ⟨0, false, true, false⟩ }

/-- With no transaction waiting the unit stays idle (70_reset_and_hazards.md section 1; log entry 6); the model's
choice for its own fields at `Reset` is that what the host has yet to issue stays and no reply is held (log entries 4
and 5). -/
def Obligations.IdleAndResetKeepQueue : Prop :=
  (∀ s : State, s.pending = [] → step s = .next s) ∧
  ∀ (s : State) (rest : List Transaction), s.pending = .reset :: rest →
    ∃ t, step s = .next t ∧ t.pending = rest ∧ t.reply = .noReply

/-! ## Commands -/

/-- R160: `NOP` changes nothing, `STATUS` included. -/
def Obligations.NopChangesNothing : Prop :=
  decode 0x00000000#32 = .ok .nop ∧ ∀ s : State, exec .nop s = .next s

/-- R161: `CLR` makes every register 0 and keeps every word. -/
def Obligations.ClrClearsRegisters : Prop :=
  decode 0x10000000#32 = .ok .clr ∧
  ∀ s : State, exec .clr s = .next { s with
    plen := 0, dlen := 0, width := 0, idx := 0, result := 0, ctrl := 0, status := ⟨0, false, false, false⟩ }

/-- R100: `WIDTHBS` sets `WIDTH` to `max(bitlen(PLEN - 1), 4)`, between 4 and 32, and clears `STATUS`; an empty palette
faults and `WIDTH` stays. -/
def Obligations.WidthbsComputesWidth : Prop :=
  decode 0x20000000#32 = .ok .widthbs ∧
  ∀ s : State,
    (s.plen.toNat = 0 → exec .widthbs s = .next { s with status := ⟨2, false, false, false⟩ }) ∧
    (s.plen.toNat ≠ 0 → ∃ t, exec .widthbs s = .next t ∧
      t = { s with width := t.width, status := ⟨0, false, false, false⟩ } ∧
      t.width.toNat = max (bitlen (s.plen.toNat - 1)) 4 ∧ 4 ≤ t.width.toNat ∧ t.width.toNat ≤ 32)

/-- R101: `WIDTHBIO` sets `WIDTH` to `bitlen(PLEN - 1)`, at most 32, and clears `STATUS`; an empty palette faults and
`WIDTH` stays. -/
def Obligations.WidthbioComputesWidth : Prop :=
  decode 0x30000000#32 = .ok .widthbio ∧
  ∀ s : State,
    (s.plen.toNat = 0 → exec .widthbio s = .next { s with status := ⟨2, false, false, false⟩ }) ∧
    (s.plen.toNat ≠ 0 → ∃ t, exec .widthbio s = .next t ∧
      t = { s with width := t.width, status := ⟨0, false, false, false⟩ } ∧
      t.width.toNat = bitlen (s.plen.toNat - 1) ∧ t.width.toNat ≤ 32)

/-- R102: a palette length of 0 is the fault `E_PLEN` for the width commands and the whole lookups, and nothing else
changes. -/
def Obligations.EmptyPaletteFaults : Prop :=
  ∀ (s : State) (x y z : BitVec 4), s.plen.toNat = 0 →
    exec .widthbs s = .next { s with status := ⟨2, false, false, false⟩ } ∧
    exec .widthbio s = .next { s with status := ⟨2, false, false, false⟩ } ∧
    exec (.getbs x y z) s = .next { s with status := ⟨2, false, false, false⟩ } ∧
    exec (.getbio x y z) s = .next { s with status := ⟨2, false, false, false⟩ }

/-- R103: for `PLEN >= 1` the width `WIDTHBIO` computes is the least `w` with `PLEN <= 2^w`, and `WIDTHBS` raises that
number to at least 4; for `PLEN = 0` both fault. -/
def Obligations.WidthIsLeastSufficient : Prop :=
  ∀ s : State,
    (s.plen.toNat = 0 → ∀ i ∈ [Instr.widthbs, Instr.widthbio], ∃ t, exec i s = .next t ∧ t.status.err = 2) ∧
    (1 ≤ s.plen.toNat → ∃ t u, exec .widthbio s = .next t ∧ exec .widthbs s = .next u ∧
      s.plen.toNat ≤ 2 ^ t.width.toNat ∧ (∀ v, v < t.width.toNat → 2 ^ v < s.plen.toNat) ∧
      u.width.toNat = max t.width.toNat 4)

/-- R110: `LINBS x, y, z` sets `IDX` to `y*256 + z*16 + x`, the low twelve bits of its word, and clears `STATUS`; the
index is in 0..4095 and every one of them comes from exactly one triple. -/
def Obligations.LinbsComputesIndex : Prop :=
  (∀ (s : State) (x y z : BitVec 4), exec (.linbs x y z) s = .next { s with
    idx := BitVec.ofNat 32 (y.toNat * 256 + z.toNat * 16 + x.toNat), status := ⟨0, false, false, false⟩ }) ∧
  (∀ x y z : BitVec 4,
    (encode (.linbs x y z)).toNat = 0x40000000 + (y.toNat * 256 + z.toNat * 16 + x.toNat)) ∧
  ∀ n, n < 4096 → ∃ x y z : BitVec 4, y.toNat * 256 + z.toNat * 16 + x.toNat = n ∧
    ∀ x' y' z' : BitVec 4, y'.toNat * 256 + z'.toNat * 16 + x'.toNat = n → x' = x ∧ y' = y ∧ z' = z

/-- R111: `LINBIO x, y, z` sets `IDX` to `((y mod 16) div 4)*16 + (z div 4)*4 + (x div 4)`, at most 63 and the top two
bits of y, z, x in that order, and clears `STATUS`. -/
def Obligations.LinbioComputesIndex : Prop :=
  (∀ (s : State) (x y z : BitVec 4), exec (.linbio x y z) s = .next { s with
    idx := BitVec.ofNat 32 (((y.toNat % 16) / 4) * 16 + (z.toNat / 4) * 4 + x.toNat / 4)
    status := ⟨0, false, false, false⟩ }) ∧
  (∀ x y z : BitVec 4,
    (encode (.linbio x y z)).toNat = 0x50000000 + (y.toNat * 256 + z.toNat * 16 + x.toNat)) ∧
  ∀ x y z : BitVec 4, ((y.toNat % 16) / 4) * 16 + (z.toNat / 4) * 4 + x.toNat / 4 =
    (y.extractLsb' 2 2 ++ z.extractLsb' 2 2 ++ x.extractLsb' 2 2).toNat

/-- R121: `EXTPAD` faults with `E_WIDTH` unless `1 <= WIDTH <= 32`, then with `E_TRUNC` when its word is at or beyond
`DLEN`, changing only `STATUS`; else `RESULT` becomes the `WIDTH` bits at its place in the word and `STATUS` says
valid. -/
def Obligations.ExtpadExtractsField : Prop :=
  decode 0x60000000#32 = .ok .extpad ∧
  ∀ (s : State) (w k : Nat), w = s.width.toNat → k = s.idx.toNat →
    ((w < 1 ∨ 32 < w) → exec .extpad s = .next { s with status := ⟨3, false, false, false⟩ }) ∧
    (1 ≤ w → w ≤ 32 → s.dlen.toNat ≤ k / (64 / w) →
      exec .extpad s = .next { s with status := ⟨4, false, false, false⟩ }) ∧
    (∀ d, 1 ≤ w → w ≤ 32 → k / (64 / w) < s.dlen.toNat → s.wmem.read (k / (64 / w)) = some d →
      exec .extpad s = .next { s with
        result := BitVec.ofNat 32 (d.toNat / 2 ^ ((k % (64 / w)) * w) % 2 ^ w)
        status := ⟨0, true, false, false⟩ })

/-- R124: `EXTSPAN` faults with `E_WIDTH` if `WIDTH > 32`, then with `E_TRUNC` when a word it needs is at or beyond
`DLEN`, changing only `STATUS`; else `RESULT` becomes the field, cut from one word or put together from two, and
`SPANNED` says which. -/
def Obligations.ExtspanExtractsField : Prop :=
  decode 0x70000000#32 = .ok .extspan ∧
  ∀ (s : State) (w p : Nat), w = s.width.toNat → p = w * s.idx.toNat →
    (32 < w → exec .extspan s = .next { s with status := ⟨3, false, false, false⟩ }) ∧
    (w ≤ 32 → s.dlen.toNat ≤ p / 64 →
      exec .extspan s = .next { s with status := ⟨4, false, false, false⟩ }) ∧
    (∀ d, w ≤ 32 → w ≤ 64 - p % 64 → p / 64 < s.dlen.toNat → s.wmem.read (p / 64) = some d →
      exec .extspan s = .next { s with
        result := BitVec.ofNat 32 (d.toNat / 2 ^ (p % 64) % 2 ^ w)
        status := ⟨0, true, false, false⟩ }) ∧
    (∀ d, w ≤ 32 → 64 - p % 64 < w → p / 64 < s.dlen.toNat → s.dlen.toNat ≤ p / 64 + 1 →
      s.wmem.read (p / 64) = some d →
      exec .extspan s = .next { s with status := ⟨4, false, false, false⟩ }) ∧
    (∀ d e, w ≤ 32 → 64 - p % 64 < w → p / 64 + 1 < s.dlen.toNat →
      s.wmem.read (p / 64) = some d → s.wmem.read (p / 64 + 1) = some e →
      exec .extspan s = .next { s with
        result := BitVec.ofNat 32
          (d.toNat / 2 ^ (p % 64) + e.toNat % 2 ^ (w - (64 - p % 64)) * 2 ^ (64 - p % 64))
        status := ⟨0, true, false, true⟩ })

/-- R120: bit by bit, a padded field `k` is bits `(k mod fpw)*w` up of word `k div fpw`, and a spanning field `k` is
bits `k*w` up of the words laid end to end; every bit from `w` up is 0. -/
def Obligations.FieldBitsOfBothLayouts : Prop :=
  (∀ (s t : State) (w k : Nat) (d : Word), w = s.width.toNat → k = s.idx.toNat → exec .extpad s = .next t →
    t.status.err = 0 → s.wmem.read (k / (64 / w)) = some d →
      ∀ i, t.result.getLsbD i = (decide (i < w) && d.getLsbD ((k % (64 / w)) * w + i))) ∧
  ∀ (s t : State) (w k : Nat), w = s.width.toNat → k = s.idx.toNat → exec .extspan s = .next t →
    t.status.err = 0 →
      ∀ i, t.result.getLsbD i =
        (decide (i < w) && ((s.wmem.read ((k * w + i) / 64)).getD 0).getLsbD ((k * w + i) % 64))

/-- R125: with the words below `DLEN` as one number `B`, `EXTSPAN` gives `(B div 2^(w*k)) mod 2^w`; it faults with
`E_TRUNC` exactly when the field's last bit is at or beyond `64 * DLEN`, or, at width 0, when `DLEN = 0`. -/
def Obligations.ExtspanReadsBitString : Prop :=
  ∀ (s : State) (w k : Nat), s.loaded → w = s.width.toNat → k = s.idx.toNat → w ≤ 32 →
    ∃ t, exec .extspan s = .next t ∧
      (t.status.err = 4 ↔ (1 ≤ w ∧ 64 * s.dlen.toNat ≤ w * k + w - 1) ∨ (w = 0 ∧ s.dlen.toNat = 0)) ∧
      (t.status.err ≠ 4 →
        t.status.err = 0 ∧ t.result.toNat = s.bitString s.dlen.toNat / 2 ^ (w * k) % 2 ^ w)

/-- R126: at the widths that divide 64 the two layouts are one, field by field, and no field spans; at every width from
1 to 32 they agree on the fields of word 0; and at every other width, on every field from `64 div w` on whose padded
word exists, some words make them differ. -/
def Obligations.LayoutsCoincide : Prop :=
  (∀ w ∈ [1, 2, 4, 8, 16, 32], 64 / w * w = 64 ∧
    ∀ k, k / (64 / w) = w * k / 64 ∧ (k % (64 / w)) * w = w * k % 64) ∧
  (∀ s : State, s.width.toNat ∈ [1, 2, 4, 8, 16, 32] → exec .extpad s = exec .extspan s ∧
    ∀ t, exec .extspan s = .next t → t.status.spanned = false) ∧
  (∀ s : State, 1 ≤ s.width.toNat → s.width.toNat ≤ 32 → s.idx.toNat < 64 / s.width.toNat →
    exec .extpad s = exec .extspan s) ∧
  ∀ w k : Nat, 1 ≤ w → w ≤ 32 → w ∉ [1, 2, 4, 8, 16, 32] → 64 / w ≤ k → k / (64 / w) < 2048 →
    ∃ s t u : State, s.width.toNat = w ∧ s.idx.toNat = k ∧ exec .extpad s = .next t ∧ exec .extspan s = .next u ∧
      t.status.err = 0 ∧ u.status.err = 0 ∧ t.result ≠ u.result

/-- A memory of 2048 words holds any section: the words of the 4096 padded fields, and of the 4096 spanning fields, of
any legal width are below 2048, so no extraction of one is truncated when `DLEN` is 2048 (10_state.md section 2). -/
def Obligations.FullMemoryHoldsSection : Prop :=
  ∀ (s t : State), s.dlen.toNat = 2048 → s.idx.toNat < 4096 →
    (exec .extpad s = .next t → t.status.err ≠ 4) ∧ (exec .extspan s = .next t → t.status.err ≠ 4)

/-- Round trip of the padded layout (95_test_vectors.md section 1, S12): the field values packed into a word come back,
each at its index. -/
def Obligations.PaddedRoundTrip : Prop :=
  ∀ (s : State) (w k v : Nat) (vs : List Nat), w = s.width.toNat → k = s.idx.toNat → 1 ≤ w → w ≤ 32 →
    (∀ u ∈ vs, u < 2 ^ w) → vs[k]? = some v → k / (64 / w) < s.dlen.toNat →
    s.wmem.read (k / (64 / w)) = some (BitVec.ofNat 64 (paddedWord w vs (k / (64 / w)))) →
      exec .extpad s = .next { s with result := BitVec.ofNat 32 v, status := ⟨0, true, false, false⟩ }

/-- Round trip of the spanning layout (95_test_vectors.md section 4): field values packed without gaps come back, each
at its index, and `SPANNED` says which cross a word boundary. -/
def Obligations.SpanningRoundTrip : Prop :=
  ∀ (s : State) (w k v : Nat) (vs : List Nat), w = s.width.toNat → k = s.idx.toNat → 1 ≤ w → w ≤ 32 →
    (∀ u ∈ vs, u < 2 ^ w) → vs[k]? = some v → w * vs.length ≤ 64 * s.dlen.toNat →
    (∀ a < s.dlen.toNat, s.wmem.read a = some (BitVec.ofNat 64 (Nat.ofDigits (2 ^ w) vs / 2 ^ (64 * a)))) →
      exec .extspan s = .next { s with
        result := BitVec.ofNat 32 v, status := ⟨0, true, false, decide (64 < w * k % 64 + w)⟩ }

/-- R127: `CHKPAL` faults with `E_RANGE` when `RESULT >= PLEN`; passing, it writes `ERR` to 0 and nothing else. -/
def Obligations.ChkpalChecksRange : Prop :=
  decode 0xA0000000#32 = .ok .chkpal ∧
  ∀ s : State,
    (s.plen.toNat ≤ s.result.toNat → exec .chkpal s = .next { s with status := ⟨5, false, false, false⟩ }) ∧
    (s.result.toNat < s.plen.toNat → exec .chkpal s = .next { s with
      status := ⟨0, s.status.valid, s.status.absent, s.status.spanned⟩ })

/-- R141: the prologue of both lookups: an empty palette faults; an absent data array gives index 0 with `VALID` and
`ABSENT`, whatever the words hold, and `WIDTH` and `IDX` stay. -/
def Obligations.LookupPrologue : Prop :=
  ∀ (s : State) (x y z : BitVec 4), ∀ i ∈ [Instr.getbs x y z, Instr.getbio x y z],
    (s.plen.toNat = 0 → exec i s = .next { s with status := ⟨2, false, false, false⟩ }) ∧
    (s.plen.toNat ≠ 0 → s.dlen.toNat = 0 →
      exec i s = .next { s with result := 0, status := ⟨0, true, true, false⟩ })

/-- R142: `GETBS` with palette and data present: width and index are written, then the field is cut from the padded
layout and checked; `E_TRUNC` keeps `WIDTH` and `IDX`, `E_RANGE` keeps `RESULT` too. -/
def Obligations.GetbsLooksUp : Prop :=
  (∀ x y z : BitVec 4,
    (encode (.getbs x y z)).toNat = 0x80000000 + (y.toNat * 256 + z.toNat * 16 + x.toNat)) ∧
  (∀ (s : State) (x y z : BitVec 4), s.plen.toNat = 0 →
    exec (.getbs x y z) s = .next { s with status := ⟨2, false, false, false⟩ }) ∧
  (∀ (s : State) (x y z : BitVec 4), s.plen.toNat ≠ 0 → s.dlen.toNat = 0 →
    exec (.getbs x y z) s = .next { s with result := 0, status := ⟨0, true, true, false⟩ }) ∧
  ∀ (s : State) (x y z : BitVec 4) (w k : Nat), w = max (bitlen (s.plen.toNat - 1)) 4 →
    k = y.toNat * 256 + z.toNat * 16 + x.toNat → s.plen.toNat ≠ 0 → s.dlen.toNat ≠ 0 →
    (s.dlen.toNat ≤ k / (64 / w) → exec (.getbs x y z) s = .next { s with
      width := BitVec.ofNat 6 w, idx := BitVec.ofNat 32 k, status := ⟨4, false, false, false⟩ }) ∧
    ∀ (d : Word) (v : Nat), k / (64 / w) < s.dlen.toNat → s.wmem.read (k / (64 / w)) = some d →
      v = d.toNat / 2 ^ ((k % (64 / w)) * w) % 2 ^ w →
      (v < s.plen.toNat → exec (.getbs x y z) s = .next { s with
        width := BitVec.ofNat 6 w, idx := BitVec.ofNat 32 k, result := BitVec.ofNat 32 v
        status := ⟨0, true, false, false⟩ }) ∧
      (s.plen.toNat ≤ v → exec (.getbs x y z) s = .next { s with
        width := BitVec.ofNat 6 w, idx := BitVec.ofNat 32 k, result := BitVec.ofNat 32 v
        status := ⟨5, false, false, false⟩ })

/-- R143: `GETBIO` with palette and data present: width and sub-cell index are written, then the field is cut from the
spanning layout and checked; faults keep what earlier steps wrote. -/
def Obligations.GetbioLooksUp : Prop :=
  (∀ x y z : BitVec 4,
    (encode (.getbio x y z)).toNat = 0x90000000 + (y.toNat * 256 + z.toNat * 16 + x.toNat)) ∧
  (∀ (s : State) (x y z : BitVec 4), s.plen.toNat = 0 →
    exec (.getbio x y z) s = .next { s with status := ⟨2, false, false, false⟩ }) ∧
  (∀ (s : State) (x y z : BitVec 4), s.plen.toNat ≠ 0 → s.dlen.toNat = 0 →
    exec (.getbio x y z) s = .next { s with result := 0, status := ⟨0, true, true, false⟩ }) ∧
  ∀ (s : State) (x y z : BitVec 4) (w k v : Nat), s.loaded → w = bitlen (s.plen.toNat - 1) →
    k = (y.toNat / 4) * 16 + (z.toNat / 4) * 4 + x.toNat / 4 → s.plen.toNat ≠ 0 → s.dlen.toNat ≠ 0 →
    v = s.bitString s.dlen.toNat / 2 ^ (w * k) % 2 ^ w →
    (64 * s.dlen.toNat < w * k + w → exec (.getbio x y z) s = .next { s with
      width := BitVec.ofNat 6 w, idx := BitVec.ofNat 32 k, status := ⟨4, false, false, false⟩ }) ∧
    (w * k + w ≤ 64 * s.dlen.toNat → v < s.plen.toNat → exec (.getbio x y z) s = .next { s with
      width := BitVec.ofNat 6 w, idx := BitVec.ofNat 32 k, result := BitVec.ofNat 32 v
      status := ⟨0, true, false, decide (64 < w * k % 64 + w)⟩ }) ∧
    (w * k + w ≤ 64 * s.dlen.toNat → s.plen.toNat ≤ v → exec (.getbio x y z) s = .next { s with
      width := BitVec.ofNat 6 w, idx := BitVec.ofNat 32 k, result := BitVec.ofNat 32 v
      status := ⟨5, false, false, false⟩ })

/-- R140: with palette and data present, each whole lookup ends as its four commands issued one after another by a host
that stops at the first one that faults. -/
def Obligations.LookupIsItsSequence : Prop :=
  ∀ (s : State) (x y z : BitVec 4), s.plen.toNat ≠ 0 → s.dlen.toNat ≠ 0 →
    exec (.getbs x y z) s = runUntilFault [.widthbs, .linbs x y z, .extpad, .chkpal] s ∧
    exec (.getbio x y z) s = runUntilFault [.widthbio, .linbio x y z, .extspan, .chkpal] s

/-- The index a lookup calls valid is below the palette length (95_test_vectors.md section 4, property 5). -/
def Obligations.LookupIndexInPalette : Prop :=
  ∀ (s t : State) (x y z : BitVec 4), ∀ i ∈ [Instr.getbs x y z, Instr.getbio x y z],
    exec i s = .next t → t.status.valid = true → t.status.err = 0 ∧ t.result.toNat < t.plen.toNat

/-- R151: with `GENFULL = 0` both heightmap commands report the heightmap as unavailable, without a fault, without
writing `RESULT`, whatever the words hold. -/
def Obligations.HeightmapUnavailable : Prop :=
  ∀ s : State, s.ctrl = 0 →
    exec .hmget s = .next { s with status := ⟨0, false, true, false⟩ } ∧
    exec .hmlen s = .next { s with status := ⟨0, false, true, false⟩ }

/-- R153: `HMGET` gives the field less 65, in 32-bit two's complement, for an index with a non-zero field at or after
it; for any other index it faults with `E_NOFIELD` and writes only `STATUS`; with `GENFULL = 0` it reports absence. -/
def Obligations.HmgetReadsHeight : Prop :=
  decode 0xC0000000#32 = .ok .hmget ∧
  ∀ (s : State) (k : Nat), k = s.idx.toNat →
    (s.ctrl = 0 → exec .hmget s = .next { s with status := ⟨0, false, true, false⟩ }) ∧
    (s.ctrl = 1 → s.loaded → (∃ j, k ≤ j ∧ j < 7 * s.dlen.toNat ∧ s.heightField j ≠ 0) →
      exec .hmget s = .next { s with
        result := BitVec.ofInt 32 ((s.heightField k : Int) - 65), status := ⟨0, true, false, false⟩ }) ∧
    (s.ctrl = 1 → s.loaded → (∀ j, k ≤ j → j < 7 * s.dlen.toNat → s.heightField j = 0) →
      exec .hmget s = .next { s with status := ⟨6, false, false, false⟩ })

/-- R154: `HMLEN` gives the number of fields left after the zero fields at the end are dropped: every field from there
on is 0 and the one before is not; with `GENFULL = 0` it reports absence. -/
def Obligations.HmlenCountsRetained : Prop :=
  decode 0xD0000000#32 = .ok .hmlen ∧
  ∀ s : State,
    (s.ctrl = 0 → exec .hmlen s = .next { s with status := ⟨0, false, true, false⟩ }) ∧
    (s.ctrl = 1 → s.loaded → ∃ l, l ≤ 7 * s.dlen.toNat ∧
      (∀ j, l ≤ j → j < 7 * s.dlen.toNat → s.heightField j = 0) ∧ (0 < l → s.heightField (l - 1) ≠ 0) ∧
      exec .hmlen s = .next { s with result := BitVec.ofNat 32 l, status := ⟨0, true, false, false⟩ })

/-- R156: the heightmap field `k` is what `EXTPAD` gives at `WIDTH = 9`, `IDX = k`, for every `k` whose word is below
`DLEN`; past the gate and the tail check `HMGET` ends as that `EXTPAD` does but for the offset: `RESULT` is the field
less 65. -/
def Obligations.HeightmapIsPaddedWidthNine : Prop :=
  ∀ (s : State) (k : Nat), s.loaded → k = s.idx.toNat → k / 7 < s.dlen.toNat →
    ∃ t, exec .extpad { s with width := 9 } = .next t ∧ t.status.err = 0 ∧ t.result.toNat = s.heightField k ∧
      hmField s k = .ok t.result.toNat ∧
      ∀ u, exec .hmget s = .next u → s.ctrl = 1 → u.status.err = 0 →
        u = { s with result := BitVec.ofInt 32 ((t.result.toNat : Int) - 65), status := t.status }

/-- Bit 63 of a heightmap word never reaches a height, a length or a fault (93_implementation_defined.md U4). -/
def Obligations.HeightmapIgnoresBit63 : Prop :=
  ∀ (s t : State), t = { s with wmem := t.wmem } →
    (∀ a, (t.wmem.read a).map (fun v => v.toNat % 2 ^ 63) = (s.wmem.read a).map (fun v => v.toNat % 2 ^ 63)) →
    ∀ i ∈ [Instr.hmget, Instr.hmlen], ∀ s', exec i s = .next s' → exec i t = .next { s' with wmem := t.wmem }

/-! ## The whole machine -/

/-- Every step keeps a state legal: `DLEN` at most 2048, `STATUS` a value some command leaves (no code from 7 to 15),
the word memory in canonical form. -/
def Obligations.StepKeepsWellFormed : Prop := ∀ s t : State, s.wf → step s = .next t → t.wf

/-- The state after reset is legal. -/
def Obligations.ResetWellFormed : Prop := State.reset.wf

/-- From R7 and R200: no command changes a word, and only the host's `WmemWrite`, or its `Reset`, does. -/
def Obligations.OnlyWmemWriteChangesWords : Prop :=
  (∀ (i : Instr) (s t : State), exec i s = .next t → t.wmem = s.wmem) ∧
  ∀ s t : State, step s = .next t → t.wmem ≠ s.wmem →
    (∃ a v rest, s.pending = .wmemWrite a v :: rest) ∨ ∃ rest, s.pending = .reset :: rest

/-- What each command leaves as it was: `PLEN`, `DLEN`, `CTRL` under every command but `CLR`; `WIDTH`, `IDX`, `RESULT`
under every command the table does not let write them; the host's queue and reply always (10_state.md section 5). -/
def Obligations.CommandsWriteOnlyTheirRegisters : Prop :=
  ∀ (i : Instr) (s t : State), exec i s = .next t →
    t.pending = s.pending ∧ t.reply = s.reply ∧ t.wmem = s.wmem ∧
    (i.mnemonic ∉ ["CLR"] → t.plen = s.plen ∧ t.dlen = s.dlen ∧ t.ctrl = s.ctrl) ∧
    (i.mnemonic ∉ ["CLR", "WIDTHBS", "WIDTHBIO", "GETBS", "GETBIO"] → t.width = s.width) ∧
    (i.mnemonic ∉ ["CLR", "LINBS", "LINBIO", "GETBS", "GETBIO"] → t.idx = s.idx) ∧
    (i.mnemonic ∉ ["CLR", "EXTPAD", "EXTSPAN", "GETBS", "GETBIO", "HMGET", "HMLEN"] → t.result = s.result) ∧
    (i.mnemonic ∈ ["NOP"] → t.status = s.status)

/-- `WIDTH` changes in a step only by the host's write to it, by `Reset`, or by one of the five commands that write it
(70_reset_and_hazards.md section 3, the stale width). -/
def Obligations.WidthChangesOnlyByItsWriters : Prop :=
  ∀ s t : State, step s = .next t → t.width ≠ s.width →
    (∃ v rest, s.pending = .csrWrite 2 v :: rest) ∨ (∃ rest, s.pending = .reset :: rest) ∨
    ∃ c i rest, s.pending = .csrWrite 7 c :: rest ∧ decode c = .ok i ∧
      i.mnemonic ∈ ["WIDTHBS", "WIDTHBIO", "GETBS", "GETBIO", "CLR"]

/-- R173: which command can raise which fault, exactly: from a state without an error, some use of the command ends
with the code when the table says it can, and none does when it says it cannot. -/
def Obligations.FaultMatrix : Prop :=
  ∀ (i : Instr) (e : FaultCode), canRaise i e = true ↔
    ∃ (j : Instr) (s t : State), j.mnemonic = i.mnemonic ∧ s.status.err = 0 ∧ exec j s = .next t ∧
      t.status.err = e.code

/-- A command other than `NOP` that faults leaves only its code in `STATUS`; if it is a single-step command nothing
else changed, and if it is a whole lookup only `WIDTH`, `IDX` and `RESULT` may have (60_exceptions.md section 1). -/
def Obligations.FaultWritesStatusAlone : Prop :=
  ∀ (i : Instr) (s t : State), exec i s = .next t → i ≠ .nop → t.status.err ≠ 0 →
    t.status = ⟨t.status.err, false, false, false⟩ ∧
    t = { s with width := t.width, idx := t.idx, result := t.result, status := t.status } ∧
    (i.mnemonic ∉ ["GETBS", "GETBIO"] → t = { s with status := t.status })

/-- Issuing a command twice in a row is issuing it once: no command changes its own inputs (20_memory.md section 3). -/
def Obligations.CommandsIdempotent : Prop :=
  ∀ (i : Instr) (s t : State), exec i s = .next t → exec i t = .next t

/-- What a command does depends on no word at or above `DLEN`: two states that agree on the registers and on the words
below `DLEN` end alike (20_memory.md section 3; 93_implementation_defined.md U3). -/
def Obligations.WordsBeyondDlenInvisible : Prop :=
  ∀ (i : Instr) (s t : State), s.sameInput t →
    (∀ s', exec i s = .next s' → exec i t = .next { s' with wmem := t.wmem }) ∧
    ∀ r, exec i s = .refused r → exec i t = .refused r

/-- Every command in every register state completes or faults, so has a next state, when the host has written the words
below `DLEN` (60_exceptions.md section 1; 70_reset_and_hazards.md section 2). -/
def Obligations.LoadedCommandsAnswer : Prop :=
  ∀ (i : Instr) (s : State), s.loaded → ∃ t, exec i s = .next t

/-- The model's choice (log entry 2; 10_state.md section 2): a command is refused for one reason only, a word below
`DLEN` that nothing has written, and the refusal names it. -/
def Obligations.RefusedOnlyForUnwrittenWord : Prop :=
  ∀ (i : Instr) (s : State) (r : Refusal), exec i s = .refused r →
    ∃ a, r = .unwrittenWord a ∧ a < s.dlen.toNat ∧ s.wmem.read a = none

/-- The model's choice (log entry 2): which reads refuse a command. An extraction, alone or in a lookup, is refused at
the first word it reads that nothing has written; the heightmap commands read from the last word down to the last
non-zero field, and `HMGET` then reads the word of its field. -/
def Obligations.UnwrittenReadsRefuseCommands : Prop :=
  (∀ (s : State) (w a : Nat), w = s.width.toNat → 1 ≤ w → w ≤ 32 → a = s.idx.toNat / (64 / w) → a < s.dlen.toNat →
    s.wmem.read a = none → exec .extpad s = .refused (.unwrittenWord a)) ∧
  (∀ (s : State) (w p a : Nat), w = s.width.toNat → p = w * s.idx.toNat → w ≤ 32 → s.wmem.read a = none →
    a < s.dlen.toNat →
    (a = p / 64 ∨ (a = p / 64 + 1 ∧ 64 - p % 64 < w ∧ s.wmem.read (p / 64) ≠ none)) →
      exec .extspan s = .refused (.unwrittenWord a)) ∧
  (∀ (s : State) (x y z : BitVec 4) (w a : Nat), s.plen.toNat ≠ 0 → w = max (bitlen (s.plen.toNat - 1)) 4 →
    a = (y.toNat * 256 + z.toNat * 16 + x.toNat) / (64 / w) → a < s.dlen.toNat → s.wmem.read a = none →
      exec (.getbs x y z) s = .refused (.unwrittenWord a)) ∧
  (∀ (s : State) (x y z : BitVec 4) (w p a : Nat), s.plen.toNat ≠ 0 → w = bitlen (s.plen.toNat - 1) →
    p = w * ((y.toNat / 4) * 16 + (z.toNat / 4) * 4 + x.toNat / 4) → s.wmem.read a = none → a < s.dlen.toNat →
    (a = p / 64 ∨ (a = p / 64 + 1 ∧ 64 - p % 64 < w ∧ s.wmem.read (p / 64) ≠ none)) →
      exec (.getbio x y z) s = .refused (.unwrittenWord a)) ∧
  ∀ (s : State) (a : Nat), s.ctrl = 1 → a < s.dlen.toNat → s.wmem.read a = none →
    ((∀ b, a < b → b < s.dlen.toNat → ∃ v, s.wmem.read b = some v ∧ v.toNat % 2 ^ 63 = 0) →
      ∀ i ∈ [Instr.hmget, Instr.hmlen], exec i s = .refused (.unwrittenWord a)) ∧
    ∀ (b : Nat) (u : Word), a = s.idx.toNat / 7 → a < b → b < s.dlen.toNat → s.wmem.read b = some u →
      u.toNat % 2 ^ 63 ≠ 0 →
      (∀ c, b < c → c < s.dlen.toNat → ∃ v, s.wmem.read c = some v ∧ v.toNat % 2 ^ 63 = 0) →
        exec .hmget s = .refused (.unwrittenWord a)

/-- The model's choice (log entry 1): two memories in canonical form that read alike everywhere are the same data. -/
def Obligations.CanonicalMemoryUnique : Prop :=
  ∀ m n : Memory, m.wf → n.wf → (∀ a, m.read a = n.read a) → m = n

/-- What the host concludes from `STATUS` (60_exceptions.md section 1): a failure for a non-zero `ERR`, else the answer
(by default when `ABSENT`) for `VALID`, else no value (the heightmap unavailable when `ABSENT`); and the source's
category of each outcome, where the model's choice for the codes 7 to 15 is none (log entry 20). -/
def Obligations.HostReadsOutcome : Prop :=
  ∀ st : Status,
    (st.err ≠ 0 → st.reading = .failed st.err) ∧
    (st.err = 0 → st.valid = true → st.reading = .answer st.absent) ∧
    (st.err = 0 → st.valid = false → st.reading = .noValue st.absent) ∧
    st.category =
      if st.err = 5 then .outOfRange
      else if st.err = 4 ∨ st.err = 2 then .formatError
      else if st.err = 0 ∧ st.absent = true then .absentData
      else .noCategory
end

