-- ==== Sys2Proof/Laws/State.lean ====
section
/-! SUPPORT. One lemma per field per named update of the state, so that no proof unfolds an update. -/

namespace Sys2Proof.Machine

@[simp] theorem State.setWidth_plen (s : State) (n : Nat) : (s.setWidth n).plen = s.plen := rfl
@[simp] theorem State.setWidth_dlen (s : State) (n : Nat) : (s.setWidth n).dlen = s.dlen := rfl
@[simp] theorem State.setWidth_width (s : State) (n : Nat) : (s.setWidth n).width = BitVec.ofNat 6 n := rfl
@[simp] theorem State.setWidth_idx (s : State) (n : Nat) : (s.setWidth n).idx = s.idx := rfl
@[simp] theorem State.setWidth_result (s : State) (n : Nat) : (s.setWidth n).result = s.result := rfl
@[simp] theorem State.setWidth_status (s : State) (n : Nat) : (s.setWidth n).status = s.status := rfl
@[simp] theorem State.setWidth_ctrl (s : State) (n : Nat) : (s.setWidth n).ctrl = s.ctrl := rfl
@[simp] theorem State.setWidth_wmem (s : State) (n : Nat) : (s.setWidth n).wmem = s.wmem := rfl
@[simp] theorem State.setWidth_pending (s : State) (n : Nat) : (s.setWidth n).pending = s.pending := rfl
@[simp] theorem State.setWidth_reply (s : State) (n : Nat) : (s.setWidth n).reply = s.reply := rfl

@[simp] theorem State.setIdx_plen (s : State) (n : Nat) : (s.setIdx n).plen = s.plen := rfl
@[simp] theorem State.setIdx_dlen (s : State) (n : Nat) : (s.setIdx n).dlen = s.dlen := rfl
@[simp] theorem State.setIdx_width (s : State) (n : Nat) : (s.setIdx n).width = s.width := rfl
@[simp] theorem State.setIdx_idx (s : State) (n : Nat) : (s.setIdx n).idx = BitVec.ofNat 32 n := rfl
@[simp] theorem State.setIdx_result (s : State) (n : Nat) : (s.setIdx n).result = s.result := rfl
@[simp] theorem State.setIdx_status (s : State) (n : Nat) : (s.setIdx n).status = s.status := rfl
@[simp] theorem State.setIdx_ctrl (s : State) (n : Nat) : (s.setIdx n).ctrl = s.ctrl := rfl
@[simp] theorem State.setIdx_wmem (s : State) (n : Nat) : (s.setIdx n).wmem = s.wmem := rfl
@[simp] theorem State.setIdx_pending (s : State) (n : Nat) : (s.setIdx n).pending = s.pending := rfl
@[simp] theorem State.setIdx_reply (s : State) (n : Nat) : (s.setIdx n).reply = s.reply := rfl

@[simp] theorem State.setResult_plen (s : State) (v : BitVec 32) : (s.setResult v).plen = s.plen := rfl
@[simp] theorem State.setResult_dlen (s : State) (v : BitVec 32) : (s.setResult v).dlen = s.dlen := rfl
@[simp] theorem State.setResult_width (s : State) (v : BitVec 32) : (s.setResult v).width = s.width := rfl
@[simp] theorem State.setResult_idx (s : State) (v : BitVec 32) : (s.setResult v).idx = s.idx := rfl
@[simp] theorem State.setResult_result (s : State) (v : BitVec 32) : (s.setResult v).result = v := rfl
@[simp] theorem State.setResult_status (s : State) (v : BitVec 32) : (s.setResult v).status = s.status := rfl
@[simp] theorem State.setResult_ctrl (s : State) (v : BitVec 32) : (s.setResult v).ctrl = s.ctrl := rfl
@[simp] theorem State.setResult_wmem (s : State) (v : BitVec 32) : (s.setResult v).wmem = s.wmem := rfl
@[simp] theorem State.setResult_pending (s : State) (v : BitVec 32) : (s.setResult v).pending = s.pending := rfl
@[simp] theorem State.setResult_reply (s : State) (v : BitVec 32) : (s.setResult v).reply = s.reply := rfl

@[simp] theorem State.setStatus_plen (s : State) (st : Status) : (s.setStatus st).plen = s.plen := rfl
@[simp] theorem State.setStatus_dlen (s : State) (st : Status) : (s.setStatus st).dlen = s.dlen := rfl
@[simp] theorem State.setStatus_width (s : State) (st : Status) : (s.setStatus st).width = s.width := rfl
@[simp] theorem State.setStatus_idx (s : State) (st : Status) : (s.setStatus st).idx = s.idx := rfl
@[simp] theorem State.setStatus_result (s : State) (st : Status) : (s.setStatus st).result = s.result := rfl
@[simp] theorem State.setStatus_status (s : State) (st : Status) : (s.setStatus st).status = st := rfl
@[simp] theorem State.setStatus_ctrl (s : State) (st : Status) : (s.setStatus st).ctrl = s.ctrl := rfl
@[simp] theorem State.setStatus_wmem (s : State) (st : Status) : (s.setStatus st).wmem = s.wmem := rfl
@[simp] theorem State.setStatus_pending (s : State) (st : Status) : (s.setStatus st).pending = s.pending := rfl
@[simp] theorem State.setStatus_reply (s : State) (st : Status) : (s.setStatus st).reply = s.reply := rfl

@[simp] theorem State.setReply_plen (s : State) (r : Reply) : (s.setReply r).plen = s.plen := rfl
@[simp] theorem State.setReply_dlen (s : State) (r : Reply) : (s.setReply r).dlen = s.dlen := rfl
@[simp] theorem State.setReply_width (s : State) (r : Reply) : (s.setReply r).width = s.width := rfl
@[simp] theorem State.setReply_idx (s : State) (r : Reply) : (s.setReply r).idx = s.idx := rfl
@[simp] theorem State.setReply_result (s : State) (r : Reply) : (s.setReply r).result = s.result := rfl
@[simp] theorem State.setReply_status (s : State) (r : Reply) : (s.setReply r).status = s.status := rfl
@[simp] theorem State.setReply_ctrl (s : State) (r : Reply) : (s.setReply r).ctrl = s.ctrl := rfl
@[simp] theorem State.setReply_wmem (s : State) (r : Reply) : (s.setReply r).wmem = s.wmem := rfl
@[simp] theorem State.setReply_pending (s : State) (r : Reply) : (s.setReply r).pending = s.pending := rfl
@[simp] theorem State.setReply_reply (s : State) (r : Reply) : (s.setReply r).reply = r := rfl

@[simp] theorem State.raiseFault_plen (s : State) (e : FaultCode) : (s.raiseFault e).plen = s.plen := rfl
@[simp] theorem State.raiseFault_dlen (s : State) (e : FaultCode) : (s.raiseFault e).dlen = s.dlen := rfl
@[simp] theorem State.raiseFault_width (s : State) (e : FaultCode) : (s.raiseFault e).width = s.width := rfl
@[simp] theorem State.raiseFault_idx (s : State) (e : FaultCode) : (s.raiseFault e).idx = s.idx := rfl
@[simp] theorem State.raiseFault_result (s : State) (e : FaultCode) : (s.raiseFault e).result = s.result := rfl
@[simp] theorem State.raiseFault_status (s : State) (e : FaultCode) : (s.raiseFault e).status = Status.ofFault e := rfl
@[simp] theorem State.raiseFault_ctrl (s : State) (e : FaultCode) : (s.raiseFault e).ctrl = s.ctrl := rfl
@[simp] theorem State.raiseFault_wmem (s : State) (e : FaultCode) : (s.raiseFault e).wmem = s.wmem := rfl
@[simp] theorem State.raiseFault_pending (s : State) (e : FaultCode) : (s.raiseFault e).pending = s.pending := rfl
@[simp] theorem State.raiseFault_reply (s : State) (e : FaultCode) : (s.raiseFault e).reply = s.reply := rfl

end Sys2Proof.Machine
end

