-- ==== Sys2Proof/Laws/Ops.lean ====
section
/-! SUPPORT. What each shared operation can do, said once: host stores, micro-operations and the unit's reads. -/

namespace Sys2Proof.Machine

/-! ## Host stores -/

/-- A register write by the host leaves `RESULT`, `STATUS`, the word memory and the host's own fields as they are. -/
theorem csrStore_frame (n : Nat) (v : CsrWord) (s : State) :
    (csrStore n v s).result = s.result ∧ (csrStore n v s).status = s.status ∧ (csrStore n v s).wmem = s.wmem ∧
      (csrStore n v s).pending = s.pending ∧ (csrStore n v s).reply = s.reply := by
  unfold csrStore
  split <;> exact ⟨rfl, rfl, rfl, rfl, rfl⟩

/-- A word write by the host changes the word memory alone. -/
theorem wmemStore_eq (a : Nat) (v : Word) (s : State) :
    wmemStore a v s = { s with wmem := if a < 2048 then s.wmem.write a v else s.wmem } := by
  unfold wmemStore
  by_cases h : a < 2048
  · simp [h]
  · simp [h]

/-! ## Micro-operations -/

@[simp] theorem Micro.finish_ok {α : Type} (s : State) (v : α) (f : α → State) :
    Micro.finish s (.ok v) f = .completed (f v) := rfl

@[simp] theorem Micro.finish_fault {α : Type} (s : State) (e : FaultCode) (f : α → State) :
    Micro.finish s (.error (.fault e)) f = .faulted (s.raiseFault e) := rfl

@[simp] theorem Micro.finish_unwritten {α : Type} (s : State) (a : Nat) (f : α → State) :
    Micro.finish s (.error (.unwritten a)) f = .refused a := rfl

@[simp] theorem Micro.andThen_completed (s : State) (f : State → Micro) :
    (Micro.completed s).andThen f = f s := rfl

@[simp] theorem Micro.andThen_faulted (s : State) (f : State → Micro) :
    (Micro.faulted s).andThen f = .faulted s := rfl

@[simp] theorem Micro.andThen_refused (a : Nat) (f : State → Micro) :
    (Micro.refused a).andThen f = .refused a := rfl

@[simp] theorem Micro.outcome_completed (s : State) : (Micro.completed s).outcome = .next s := rfl

@[simp] theorem Micro.outcome_faulted (s : State) : (Micro.faulted s).outcome = .next s := rfl

@[simp] theorem Micro.outcome_refused (a : Nat) : (Micro.refused a).outcome = .refused (.unwrittenWord a) := rfl

/-- A command answers a next state exactly when its sequence completes or faults. -/
theorem Micro.outcome_next {m : Micro} {t : State} (h : m.outcome = .next t) :
    m = .completed t ∨ m = .faulted t := by
  cases m with
  | completed s => exact .inl (by simpa using h)
  | faulted s => exact .inr (by simpa using h)
  | refused a => simp at h

/-- A sequence completes exactly when both parts do. -/
theorem Micro.andThen_completed_cases {m : Micro} {f : State → Micro} {t : State}
    (h : m.andThen f = .completed t) : ∃ s, m = .completed s ∧ f s = .completed t := by
  cases m with
  | completed s => exact ⟨s, rfl, h⟩
  | faulted s => simp at h
  | refused a => simp at h

/-- A sequence faults when its first part does, or when it completes and its second does. -/
theorem Micro.andThen_faulted_cases {m : Micro} {f : State → Micro} {t : State}
    (h : m.andThen f = .faulted t) : m = .faulted t ∨ ∃ s, m = .completed s ∧ f s = .faulted t := by
  cases m with
  | completed s => exact .inr ⟨s, rfl, h⟩
  | faulted s => exact .inl (by simpa using h)
  | refused a => simp at h

/-! ## Reads by the unit -/

/-- A read below `DLEN` of a written word gives that word. -/
theorem memRead_ok {s : State} {a : Nat} {v : Word} (h : a < s.dlen.toNat) (hv : s.wmem.read a = some v) :
    memRead s a = .ok v := by
  simp [memRead, Nat.not_le.2 h, hv]

/-- A read at or beyond `DLEN` is truncated. -/
theorem memRead_trunc {s : State} {a : Nat} (h : s.dlen.toNat ≤ a) : memRead s a = .error (.fault .trunc) := by
  simp [memRead, h]

/-- A read below `DLEN` of a word nothing has written stops there. -/
theorem memRead_unwritten {s : State} {a : Nat} (h : a < s.dlen.toNat) (hv : s.wmem.read a = none) :
    memRead s a = .error (.unwritten a) := by
  simp [memRead, Nat.not_le.2 h, hv]

/-- Everything a read can do. -/
theorem memRead_cases (s : State) (a : Nat) :
    (s.dlen.toNat ≤ a ∧ memRead s a = .error (.fault .trunc)) ∨
    (a < s.dlen.toNat ∧ s.wmem.read a = none ∧ memRead s a = .error (.unwritten a)) ∨
    ∃ v, a < s.dlen.toNat ∧ s.wmem.read a = some v ∧ memRead s a = .ok v := by
  rcases Nat.lt_or_ge a s.dlen.toNat with h | h
  · cases hv : s.wmem.read a with
    | none => exact .inr (.inl ⟨h, rfl, memRead_unwritten h hv⟩)
    | some v => exact .inr (.inr ⟨v, h, rfl, memRead_ok h hv⟩)
  · exact .inl ⟨h, memRead_trunc h⟩

/-- A padded field is cut from its one word; it stops as that word's read stops. -/
theorem paddedField_eq (s : State) (w k : Nat) :
    paddedField s w k =
      match memRead s (k / (64 / w)) with
      | .ok d => .ok (shr d ((k % (64 / w)) * w) &&& mask w)
      | .error e => .error e := by
  cases h : memRead s (k / (64 / w)) <;> simp [paddedField, h, bind, Except.bind, pure, Except.pure]

/-- A spanning field inside its current word. -/
theorem spanningField_inside {s : State} {w k : Nat} (h : w ≤ 64 - w * k % 64) :
    spanningField s w k =
      match memRead s (w * k / 64) with
      | .ok d => .ok (shr d (w * k % 64) &&& mask w, false)
      | .error e => .error e := by
  cases hr : memRead s (w * k / 64) with
  | error e => simp [spanningField, hr, bind, Except.bind]
  | ok d => simp [spanningField, hr, h, bind, Except.bind, pure, Except.pure]

/-- A spanning field that crosses into the next word. -/
theorem spanningField_crossing {s : State} {w k : Nat} (h : 64 - w * k % 64 < w) :
    spanningField s w k =
      match memRead s (w * k / 64), memRead s (w * k / 64 + 1) with
      | .ok cur, .ok nxt =>
        .ok ((shr cur (w * k % 64) |||
          ((nxt.toNat &&& mask (w - (64 - w * k % 64))) <<< (64 - w * k % 64))) &&& mask w, true)
      | .error e, _ => .error e
      | .ok _, .error e => .error e := by
  cases hr : memRead s (w * k / 64) with
  | error e => simp [spanningField, hr, bind, Except.bind]
  | ok d =>
    cases hn : memRead s (w * k / 64 + 1) with
    | error e => simp [spanningField, hr, hn, Nat.not_le.2 h, bind, Except.bind]
    | ok n => simp [spanningField, hr, hn, Nat.not_le.2 h, bind, Except.bind, pure, Except.pure]

/-- A heightmap field is cut from its one word; it stops as that word's read stops. -/
theorem hmField_eq (s : State) (k : Nat) :
    hmField s k =
      match memRead s (k / 7) with
      | .ok d => .ok (shr d (9 * (k % 7)) &&& 0x1FF)
      | .error e => .error e := by
  cases h : memRead s (k / 7) <;> simp [hmField, h, bind, Except.bind, pure, Except.pure]

/-- The tail scan of `n + 1` fields looks at field `n` first. -/
theorem hmTail_succ (s : State) (n : Nat) :
    hmTail s (n + 1) =
      match hmField s n with
      | .ok v => if v = 0 then hmTail s n else .ok (n + 1)
      | .error e => .error e := by
  cases h : hmField s n <;> simp [hmTail, h, bind, Except.bind, pure, Except.pure]

/-- What the tail scan answers: at most `n` fields, all fields dropped are 0, and the last kept one is not. -/
theorem hmTail_ok {s : State} {n l : Nat} (h : hmTail s n = .ok l) :
    l ≤ n ∧ (∀ k, l ≤ k → k < n → hmField s k = .ok 0) ∧
      (0 < l → ∃ v, hmField s (l - 1) = .ok v ∧ v ≠ 0) := by
  induction n with
  | zero =>
    have hl : l = 0 := by
      have : (Except.ok 0 : Except Stop Nat) = .ok l := h
      simpa using this.symm
    subst hl
    exact ⟨le_rfl, fun k _ hk => absurd hk (Nat.not_lt_zero k), fun h0 => absurd h0 (Nat.lt_irrefl 0)⟩
  | succ n ih =>
    rw [hmTail_succ] at h
    cases hv : hmField s n with
    | error e => simp [hv] at h
    | ok v =>
      simp only [hv] at h
      split at h
      · rename_i h0
        subst h0
        obtain ⟨h1, h2, h3⟩ := ih h
        refine ⟨by omega, fun k hk hkn => ?_, h3⟩
        rcases Nat.lt_or_ge k n with hlt | hge
        · exact h2 k hk hlt
        · rw [show k = n by omega]
          exact hv
      · have hl : n + 1 = l := by simpa using h
        subst hl
        exact ⟨le_rfl, fun k h1 h2 => by omega, fun _ => ⟨v, hv, ‹_›⟩⟩

/-- The heightmap gate with `GENFULL` set. -/
theorem heightmapGate_full {s : State} (h : s.genfull = true) (m : Micro) : heightmapGate s m = m := by
  simp [heightmapGate, h]

/-- The heightmap gate with `GENFULL` clear. -/
theorem heightmapGate_unavailable {s : State} (h : s.genfull = false) (m : Micro) :
    heightmapGate s m = .completed (s.setStatus Status.unavailable) := by
  simp [heightmapGate, h]

/-- The lookup prologue with a palette and data present. -/
theorem lookupPrologue_present {s : State} (f : State → Micro) (hp : s.plen.toNat ≠ 0) (hd : s.dlen.toNat ≠ 0) :
    lookupPrologue s f = f s := by
  simp [lookupPrologue, hp, hd]

/-! ## Arithmetic -/

/-- `bitlen n` is the least number of bits that hold `n`. -/
theorem bitlen_le_iff (n w : Nat) : bitlen n ≤ w ↔ n < 2 ^ w := by
  unfold bitlen
  split
  · rename_i h
    subst h
    simp
  · rename_i h
    rw [Nat.succ_le_iff, Nat.log2_lt h]

end Sys2Proof.Machine
end

