-- ==== Sys2Proof/Laws/PerInstr.lean ====
section
/-! SUPPORT. Families of statements made one instruction at a time. -/

namespace Sys2Proof.Laws

/-- A format C word masked by its mask keeps its opcode alone. -/
theorem encodeC_masked (op x y z : BitVec 4) : encodeC op x y z &&& maskC = op ++ 0#28 := by
  apply BitVec.eq_of_getLsbD_eq
  intro i hi
  simp only [encodeC, maskC, BitVec.getLsbD_and, BitVec.getLsbD_append]
  interval_cases i <;> simp

/-- The word of a command fits the command's own row of the opcode map (R84). -/
abbrev EncodedFitsRow.Statement (i : Instr) : Prop :=
  ∃ r ∈ opcodeRows, r.mnemonic = i.mnemonic ∧ r.fits (encode i) = true

theorem EncodedFitsRow.nop : EncodedFitsRow.Statement .nop := by decide

theorem EncodedFitsRow.clr : EncodedFitsRow.Statement .clr := by decide

theorem EncodedFitsRow.widthbs : EncodedFitsRow.Statement .widthbs := by decide

theorem EncodedFitsRow.widthbio : EncodedFitsRow.Statement .widthbio := by decide

theorem EncodedFitsRow.linbs (x y z : BitVec 4) : EncodedFitsRow.Statement (.linbs x y z) :=
  ⟨⟨"LINBS", 0x40000000#32, maskC⟩, by simp [opcodeRows], rfl,
    by simp [OpcodeRow.fits, encode, encodeC_masked]⟩

theorem EncodedFitsRow.linbio (x y z : BitVec 4) : EncodedFitsRow.Statement (.linbio x y z) :=
  ⟨⟨"LINBIO", 0x50000000#32, maskC⟩, by simp [opcodeRows], rfl,
    by simp [OpcodeRow.fits, encode, encodeC_masked]⟩

theorem EncodedFitsRow.extpad : EncodedFitsRow.Statement .extpad := by decide

theorem EncodedFitsRow.extspan : EncodedFitsRow.Statement .extspan := by decide

theorem EncodedFitsRow.getbs (x y z : BitVec 4) : EncodedFitsRow.Statement (.getbs x y z) :=
  ⟨⟨"GETBS", 0x80000000#32, maskC⟩, by simp [opcodeRows], rfl,
    by simp [OpcodeRow.fits, encode, encodeC_masked]⟩

theorem EncodedFitsRow.getbio (x y z : BitVec 4) : EncodedFitsRow.Statement (.getbio x y z) :=
  ⟨⟨"GETBIO", 0x90000000#32, maskC⟩, by simp [opcodeRows], rfl,
    by simp [OpcodeRow.fits, encode, encodeC_masked]⟩

theorem EncodedFitsRow.chkpal : EncodedFitsRow.Statement .chkpal := by decide

theorem EncodedFitsRow.hmget : EncodedFitsRow.Statement .hmget := by decide

theorem EncodedFitsRow.hmlen : EncodedFitsRow.Statement .hmlen := by decide

end Sys2Proof.Laws
end

