-- ==== Sys2Proof/Laws/Step.lean ====
section
/-! SUPPORT. What one step can do, said once, and why the unit's reads stop: the lemmas that proofs over every step and
every command cite instead of unfolding the step or the reads. -/

namespace Sys2Proof.Machine

/-! ## One step -/

/-- Issuing a word runs the command it is, or records an illegal word. -/
theorem issueCommand_cases {c : CommandWord} {s t : State} (h : issueCommand c s = .next t) :
    (∃ i, decode c = .ok i ∧ exec i s = .next t) ∨ ((∃ e, decode c = .error e) ∧ t = s.raiseFault .illCmd) := by
  unfold issueCommand at h
  split at h
  · exact .inl ⟨_, ‹_›, h⟩
  · cases h
    exact .inr ⟨⟨_, ‹_›⟩, rfl⟩

/-- Everything a step that answers a next state can be: idle, a command issued, a register stored to, a read, a word
stored, or a reset. -/
theorem step_cases {s t : State} (h : step s = .next t) :
    (s.pending = [] ∧ t = s) ∨
    (∃ c rest, s.pending = .csrWrite 7 c :: rest ∧
      issueCommand c { s with pending := rest, reply := .ack } = .next t) ∨
    (∃ n v rest, n ≠ 7 ∧ s.pending = .csrWrite n v :: rest ∧
      t = (csrStore n v { s with pending := rest }).setReply .ack) ∨
    (∃ n rest r, (s.pending = .csrRead n :: rest ∨ s.pending = .wmemRead n :: rest) ∧
      t = { s with pending := rest, reply := r }) ∨
    (∃ a v rest, s.pending = .wmemWrite a v :: rest ∧
      t = (wmemStore a v { s with pending := rest }).setReply .ack) ∨
    ∃ rest, s.pending = .reset :: rest ∧ t = { State.reset with pending := rest } := by
  unfold step takeTransaction at h
  split at h
  · rename_i hp
    cases h
    exact .inl ⟨hp, rfl⟩
  · rename_i tr rest hp
    refine .inr ?_
    cases tr with
    | csrWrite n v =>
      simp only [runTransaction, csrWriteTransaction] at h
      split at h
      · rename_i hn
        subst hn
        exact .inl ⟨v, rest, hp, h⟩
      · cases h
        exact .inr (.inl ⟨n, v, rest, ‹_›, hp, rfl⟩)
    | csrRead n =>
      cases h
      exact .inr (.inr (.inl ⟨n, rest, _, .inl hp, rfl⟩))
    | wmemWrite a v =>
      cases h
      exact .inr (.inr (.inr (.inl ⟨a, v, rest, hp, rfl⟩)))
    | wmemRead a =>
      simp only [runTransaction, wmemReadTransaction] at h
      split at h
      · split at h
        · cases h
          exact .inr (.inr (.inl ⟨a, rest, _, .inr hp, rfl⟩))
        · cases h
      · cases h
        exact .inr (.inr (.inl ⟨a, rest, _, .inr hp, rfl⟩))
    | reset =>
      cases h
      exact .inr (.inr (.inr (.inr ⟨rest, hp, rfl⟩)))

/-- A run that answers takes a first step that answers. -/
theorem run_first {m : Host.Core} {k : Nat} {s u : m.State} (h : m.run (k + 1) s = .next u) :
    ∃ t, m.step s = .next t ∧ m.run k t = .next u := by
  rw [Host.Core.run] at h
  cases hs : m.step s with
  | next t => exact ⟨t, rfl, by simpa [hs] using h⟩
  | fault r => simp [hs] at h
  | refused r => simp [hs] at h

/-- A run of one step more is the run and then a step. -/
theorem run_succ {m : Host.Core} {k : Nat} {s u : m.State} (h : m.run k s = .next u) :
    m.run (k + 1) s = m.step u := by
  induction k generalizing s with
  | zero =>
    cases h
    cases hs : m.step u <;> simp [Host.Core.run, hs]
  | succ k ih =>
    rw [Host.Core.run] at h ⊢
    cases hs : m.step s with
    | next t => exact ih (by simpa [hs] using h)
    | fault r => simp [hs] at h
    | refused r => simp [hs] at h

/-! ## Why the unit's reads stop -/

/-- A micro-operation that answers a next state committed its value or took a fault. -/
theorem Micro.finish_cases {α : Type} {s t : State} {r : Except Stop α} {commit : α → State}
    (h : (Micro.finish s r commit).outcome = .next t) :
    (∃ v, r = .ok v ∧ t = commit v) ∨ ∃ e, r = .error (.fault e) ∧ t = s.raiseFault e := by
  cases r with
  | ok v => exact .inl ⟨v, rfl, by simpa using h.symm⟩
  | error e =>
    cases e with
    | fault e => exact .inr ⟨e, rfl, by simpa using h.symm⟩
    | unwritten a => simp at h

/-- A read stops as truncated, or at a word below `DLEN` that nothing has written. -/
theorem memRead_error {s : State} {a : Nat} {e : Stop} (h : memRead s a = .error e) :
    (e = .fault .trunc ∧ s.dlen.toNat ≤ a) ∨ (e = .unwritten a ∧ a < s.dlen.toNat ∧ s.wmem.read a = none) := by
  rcases memRead_cases s a with ⟨ha, hr⟩ | ⟨ha, hn, hr⟩ | ⟨v, -, -, hr⟩
  · rw [hr] at h
    cases h
    exact .inl ⟨rfl, ha⟩
  · rw [hr] at h
    cases h
    exact .inr ⟨rfl, ha, hn⟩
  · rw [hr] at h
    cases h

/-- A padded field stops as its word's read does. -/
theorem paddedField_error {s : State} {w k : Nat} {e : Stop} (h : paddedField s w k = .error e) :
    memRead s (k / (64 / w)) = .error e := by
  rw [paddedField_eq] at h
  cases hr : memRead s (k / (64 / w)) with
  | ok d => simp [hr] at h
  | error e' => simpa [hr] using h

/-- A spanning field stops as the read of its current or its next word does. -/
theorem spanningField_error {s : State} {w k : Nat} {e : Stop} (h : spanningField s w k = .error e) :
    memRead s (w * k / 64) = .error e ∨ memRead s (w * k / 64 + 1) = .error e := by
  rcases Nat.lt_or_ge (64 - w * k % 64) w with hw | hw
  · rw [spanningField_crossing hw] at h
    cases hr : memRead s (w * k / 64) with
    | error e' => exact .inl (by simpa [hr] using h)
    | ok d =>
      cases hn : memRead s (w * k / 64 + 1) with
      | error e' => exact .inr (by simpa [hr, hn] using h)
      | ok d => simp [hr, hn] at h
  · rw [spanningField_inside hw] at h
    cases hr : memRead s (w * k / 64) with
    | error e' => exact .inl (by simpa [hr] using h)
    | ok d => simp [hr] at h

/-- A heightmap field stops as its word's read does. -/
theorem hmField_error {s : State} {k : Nat} {e : Stop} (h : hmField s k = .error e) :
    memRead s (k / 7) = .error e := by
  rw [hmField_eq] at h
  cases hr : memRead s (k / 7) with
  | ok d => simp [hr] at h
  | error e' => simpa [hr] using h

/-- The tail scan of the fields below `DLEN` is never truncated: it stops only at a word nothing has written. -/
theorem hmTail_error {s : State} {n : Nat} {e : Stop} (hn : n ≤ 7 * s.dlen.toNat) (h : hmTail s n = .error e) :
    ∃ a, e = .unwritten a ∧ a < s.dlen.toNat ∧ s.wmem.read a = none := by
  induction n with
  | zero => simp [hmTail, pure, Except.pure] at h
  | succ n ih =>
    rw [hmTail_succ] at h
    cases hr : hmField s n with
    | ok v =>
      simp only [hr] at h
      split at h
      · exact ih (by omega) h
      · cases h
    | error e' =>
      obtain rfl : e' = e := by simpa [hr] using h
      rcases memRead_error (hmField_error hr) with ⟨-, ht⟩ | ⟨rfl, ha, hu⟩
      · omega
      · exact ⟨_, rfl, ha, hu⟩

end Sys2Proof.Machine
end

