-- ==== Sys2Proof/Tests/Slice0.lean ====
section
/-! SUPPORT. The model's own tests: expected values are the vectors of 95_test_vectors.md and words written out from
30_encoding.md; and, for every statement with hypotheses, a concrete state and operands that meet them. -/

namespace Sys2Proof.Tests

open Sys2Proof.Machine

/-! ## Helpers -/

/-- The state after a reset and host writes: the registers as given, the words from word 0 up. -/
def unit (plen dlen width idx result : Nat) (words : List Word) : State :=
  { State.reset with
    plen := BitVec.ofNat 32 plen
    dlen := BitVec.ofNat 12 dlen
    width := BitVec.ofNat 6 width
    idx := BitVec.ofNat 32 idx
    result := BitVec.ofNat 32 result
    wmem := (List.range words.length).zip words }

/-- `unit` for the heightmap commands, with `GENFULL = 1`. -/
def heightUnit (dlen idx : Nat) (words : List Word) : State := { unit 0 dlen 0 idx 0 words with ctrl := 1 }

/-- The state with the host's transactions waiting. -/
def waiting (s : State) (ts : List Transaction) : State := { s with pending := ts }

/-- The outcome is a next state with the property. -/
def nextHas (o : Host.Outcome State Fault Refusal) (p : State → Bool) : Bool :=
  match o with
  | .next t => p t
  | _ => false

theorem exists_of_nextHas {o : Host.Outcome State Fault Refusal} {p : State → Bool} (h : nextHas o p = true) :
    ∃ t, o = .next t ∧ p t = true := by
  cases o with
  | next t => exact ⟨t, rfl, h⟩
  | fault f => cases h
  | refused r => cases h

/-- `WIDTH`, `IDX`, `RESULT` and the whole `STATUS` word are these. -/
def has (width idx result status : Nat) (t : State) : Bool :=
  t.width.toNat == width && t.idx.toNat == idx && t.result.toNat == result && t.status.bits.toNat == status

/-- The padded width-5 vector (95_test_vectors.md section 2.3). -/
def padded5 : List Word := [0x017F99B4E0D51C81, 0x0000000000000105]

/-- The spanning width-3 vector (95_test_vectors.md section 2.3). -/
def spanning3 : List Word := [0xE33AA1E33AA1E33A, 0x00000000000000A1]

/-- The heightmap vector (95_test_vectors.md section 2.6). -/
def heights : List Word := [0x9FC80A5208050087, 0x00000000010800C8]

/-! ## Well-formed words and decoding -/

theorem test_word_reserved_opcode_refused : legalWord 0xB0000000 = false := by decide
theorem test_word_reserved_bit_n_refused : legalWord 0x00000001 = false := by decide
theorem test_word_reserved_bit_c_refused : legalWord 0x80001000 = false := by decide
theorem test_word_legal_accepted : legalWord 0x80000FFF = true := by decide

/-- Every format N word, from the table of 30_encoding.md section 6. -/
theorem test_decode_format_n :
    decode 0b00000000000000000000000000000000#32 = .ok .nop ∧
    decode 0b00010000000000000000000000000000#32 = .ok .clr ∧
    decode 0b00100000000000000000000000000000#32 = .ok .widthbs ∧
    decode 0b00110000000000000000000000000000#32 = .ok .widthbio ∧
    decode 0b01100000000000000000000000000000#32 = .ok .extpad ∧
    decode 0b01110000000000000000000000000000#32 = .ok .extspan ∧
    decode 0b10100000000000000000000000000000#32 = .ok .chkpal ∧
    decode 0b11000000000000000000000000000000#32 = .ok .hmget ∧
    decode 0b11010000000000000000000000000000#32 = .ok .hmlen := by decide

/-- Format C words: opcode, sixteen zeros, then the nibbles of y, z, x. -/
theorem test_decode_format_c :
    decode 0b01000000000000000000011111000011#32 = .ok (.linbs 3 7 12) ∧
    decode 0b01010000000000000000111110001100#32 = .ok (.linbio 12 15 8) ∧
    decode 0b10000000000000000000000000011000#32 = .ok (.getbs 8 0 1) ∧
    decode 0b10010000000000000000100100110111#32 = .ok (.getbio 7 9 3) := by decide

/-- The illegal words of 95_test_vectors.md section 2.8, with the reason. -/
theorem test_decode_illegal :
    decode 0x0FFFFFFF = .error .reservedBitsN ∧ decode 0x1FFFFFFF = .error .reservedBitsN ∧
    decode 0x20000001 = .error .reservedBitsN ∧ decode 0x60000800 = .error .reservedBitsN ∧
    decode 0xC0000001 = .error .reservedBitsN ∧ decode 0x40010000 = .error .reservedBitsC ∧
    decode 0x80001000 = .error .reservedBitsC ∧ decode 0x9FFFFFFF = .error .reservedBitsC ∧
    decode 0xB0000000 = .error .reservedOpcode ∧ decode 0xE0000000 = .error .reservedOpcode ∧
    decode 0xF0000000 = .error .reservedOpcode ∧ decode 0xFFFFFFFF = .error .reservedOpcode := by decide

theorem test_encode : encode (.getbio 7 9 3) = 0x90000937 ∧ encode .hmlen = 0xD0000000 := by decide

theorem test_decodeTableWord :
    decodeTableWord 32 0x400007C3 = some (.linbs 3 7 12) ∧ decodeTableWord 32 0xB0000000 = none := by decide

/-- An illegal word writes `STATUS` alone (95_test_vectors.md section 2.8). -/
theorem test_illegal_word_faults :
    nextHas (step (waiting (unit 17 0 5 3 0 []) [.csrWrite 7 0x1FFFFFFF]))
      (fun t => has 5 3 0 0x01 t && t.plen == 17) = true := by decide

/-- The fetched command is the first thing that runs after reset. -/
theorem test_withFetchWord : nextHas (step (State.reset.withFetchWord 32 0x40000001)) (has 0 1 0 0x00) = true := by
  decide

/-! ## Commands -/

theorem test_nop : nextHas (exec .nop { unit 17 0 5 10 31 [] with status := ⟨5, false, false, false⟩ })
    (has 5 10 31 0x05) = true := by decide

theorem test_clr : nextHas (exec .clr (unit 17 2 5 10 31 padded5))
    (fun t => has 0 0 0 0x00 t && t.plen == 0 && t.dlen == 0 && t.wmem.read 1 == some 0x105) = true := by decide

theorem test_widthbs_17 : nextHas (exec .widthbs (unit 17 0 0 77 0 [])) (has 5 77 0 0x00) = true := by decide
theorem test_widthbs_max : nextHas (exec .widthbs (unit 4294967295 0 0 77 0 [])) (has 32 77 0 0x00) = true := by decide
theorem test_widthbio_1 : nextHas (exec .widthbio (unit 1 0 9 77 0 [])) (has 0 77 0 0x00) = true := by decide
theorem test_widthbio_33 : nextHas (exec .widthbio (unit 33 0 9 77 0 [])) (has 6 77 0 0x00) = true := by decide

theorem test_linbs : nextHas (exec (.linbs 12 15 8) (unit 0 0 9 0 31 [])) (has 9 3980 31 0x00) = true := by decide
theorem test_linbio : nextHas (exec (.linbio 12 15 8) (unit 0 0 9 0 31 [])) (has 9 59 31 0x00) = true := by decide
theorem test_linbio_7_11_5 : nextHas (exec (.linbio 7 11 5) (unit 0 0 9 0 31 [])) (has 9 37 31 0x00) = true := by
  decide

theorem test_extpad_next_word : nextHas (exec .extpad (unit 0 2 5 12 0 padded5)) (has 5 12 5 0x10) = true := by decide
theorem test_extpad_trunc : nextHas (exec .extpad (unit 0 2 5 24 9 padded5)) (has 5 24 9 0x04) = true := by decide

theorem test_extspan_crossing : nextHas (exec .extspan (unit 0 2 3 21 0 spanning3)) (has 3 21 3 0x50) = true := by
  decide

/-- The crossing of widths above 16 (95_test_vectors.md section 2.3, width 31). -/
theorem test_extspan_width_31 :
    nextHas (exec .extspan (unit 0 2 31 2 0 [0x89ABCDEF01234567, 0x0011223344556677]))
      (has 31 2 0x115599DE 0x50) = true := by decide

theorem test_chkpal_pass :
    nextHas (exec .chkpal { unit 17 0 8 0 16 [] with status := ⟨0, true, false, true⟩ }) (has 8 0 16 0x50) = true := by
  decide
theorem test_chkpal_range :
    nextHas (exec .chkpal { unit 16 0 8 0 16 [] with status := ⟨0, true, false, false⟩ }) (has 8 0 16 0x05) = true := by
  decide

theorem test_getbs : nextHas (exec (.getbs 12 0 0) (unit 17 2 0 0 0 padded5)) (has 5 12 5 0x10) = true := by decide
theorem test_getbs_range : nextHas (exec (.getbs 10 0 0) (unit 17 2 0 0 0 padded5)) (has 5 10 31 0x05) = true := by
  decide

theorem test_getbio : nextHas (exec (.getbio 4 4 4) (unit 8 2 0 0 0 spanning3)) (has 3 21 3 0x50) = true := by decide
theorem test_getbio_absent : nextHas (exec (.getbio 7 9 3) (unit 1 0 9 99 5 [])) (has 9 99 0 0x30) = true := by decide

theorem test_hmget_negative : nextHas (exec .hmget (heightUnit 2 2 heights)) (has 0 2 0xFFFFFFC0 0x10) = true := by
  decide
theorem test_hmget_tail : nextHas (exec .hmget (heightUnit 2 10 heights)) (has 0 10 0 0x06) = true := by decide

theorem test_hmlen : nextHas (exec .hmlen (heightUnit 2 0 heights)) (has 0 0 10 0x10) = true := by decide
theorem test_hmlen_bit63 : nextHas (exec .hmlen (heightUnit 1 0 [0x8000000000000000])) (has 0 0 0 0x10) = true := by
  decide

/-! ## Host access (95_test_vectors.md section 2.9) -/

theorem test_dlen_saturates : (csrStore 1 4096 State.reset).dlen = 2048 := by decide
theorem test_width_saturates : (csrStore 2 64 State.reset).width = 63 := by decide
theorem test_ctrl_takes_bit0 : (csrStore 6 0xFFFFFFFE State.reset).ctrl = 0 ∧ (csrStore 6 3 State.reset).ctrl = 1 := by
  decide
theorem test_status_reads : csrValue 5 { State.reset with status := ⟨0, true, false, true⟩ } = 0x50 := by decide
theorem test_wmem_edge : (wmemStore 2048 5 State.reset).wmem = [] ∧ (wmemStore 2047 5 State.reset).wmem.read 2047 = some 5 := by
  decide

/-! ## Assembler text (30_encoding.md section 5) -/

theorem test_assemble_command : assembleLine "GETBS 12, 0, 0   ; lookup".toList = some [.csrWrite 7 0x8000000C] := by
  decide
theorem test_assemble_array :
    assembleLine "array 0x105, 7".toList = some [.wmemWrite 0 0x105, .wmemWrite 1 7, .csrWrite 1 2] := by decide
theorem test_assemble_absent_array : assembleLine "array   ; absent".toList = some [.csrWrite 1 0] := by decide
theorem test_assemble_csrr : assembleLine "csrr RESULT  -> 0x00000005".toList = some [.csrRead 4] := by decide
theorem test_assemble_coordinate_16_refused : assembleLine "LINBS 16, 0, 0".toList = none := by decide

/-! ## Witnesses

For each statement with hypotheses, a concrete state and operands that meet them together, clause by clause. -/

theorem test_witness_EncodeOfDecode : decode 0x400007C3 = .ok (.linbs 3 7 12) := by decide

theorem test_witness_DecodeByMatchAndMask :
    decode 0x40000FFF = .ok (.linbs 15 15 15) ∧ (⟨"LINBS", 0x40000000#32, maskC⟩ : OpcodeRow) ∈ opcodeRows ∧ 0x40000FFF#32 &&& maskC = 0x40000000#32 := by decide

theorem test_witness_IllegalWordsExactly :
    (waiting State.reset [.csrWrite 7 0x00000001]).pending = .csrWrite 7 0x00000001 :: [] ∧
    decode 0x00000001 = .error .reservedBitsN ∧ decode 0x40001000 = .error .reservedBitsC ∧
    decode 0xB0000000 = .error .reservedOpcode := by decide

theorem test_witness_CoordinatesAreNibbles : (0 < 16 ∧ 15 < 16) ∧ decode 0x400000FF = .ok (.linbs 15 0 15) := by decide

theorem test_witness_StepRunsDecodedCommand :
    ((waiting (unit 17 2 0 0 0 padded5) [.csrWrite 7 0x8000000C]).pending = .csrWrite 7 0x8000000C :: [] ∧
      decode 0x8000000C = .ok (.getbs 12 0 0)) ∧
    ((waiting State.reset [.csrWrite 7 0xB0000000]).pending = .csrWrite 7 0xB0000000 :: [] ∧
      decode 0xB0000000 = .error .reservedOpcode) ∧
    (waiting State.reset [.csrRead 7, .reset]).pending = .csrRead 7 :: [.reset] := by decide

theorem test_witness_CsrReadRepliesRegister :
    (waiting (unit 17 2 5 3 31 padded5) [.csrRead 0]).pending = .csrRead 0 :: [] ∧
    (waiting (unit 17 2 5 3 31 padded5) [.csrRead 7]).pending = .csrRead 7 :: [] := by decide

theorem test_witness_CsrWriteStoresRegister :
    (waiting State.reset [.csrWrite 1 2049]).pending = .csrWrite 1 2049 :: [] ∧ 1 ≠ 7 ∧
    (waiting State.reset [.csrWrite 8 0xFFFFFFFF]).pending = .csrWrite 8 0xFFFFFFFF :: [] ∧ 8 ≠ 7 := by decide

theorem test_witness_NonexistentRegisters :
    8 ≤ 8 ∧ (waiting State.reset [.csrRead 8]).pending = .csrRead 8 :: [] ∧
    (waiting State.reset [.csrWrite 8 1]).pending = .csrWrite 8 1 :: [] := by decide

theorem test_witness_WmemWriteChangesOneWord :
    ((waiting State.reset [.wmemWrite 2047 1]).pending = .wmemWrite 2047 1 :: [] ∧ 2047 < 2048) ∧
    ((waiting State.reset [.wmemWrite 2048 1]).pending = .wmemWrite 2048 1 :: [] ∧ 2048 ≤ 2048) := by decide

theorem test_witness_WmemReadRepliesWord :
    ((waiting { State.reset with wmem := [(2047, 5)] } [.wmemRead 2047]).pending = .wmemRead 2047 :: [] ∧
      2047 < 2048 ∧ Memory.read [(2047, 5)] 2047 = some 5) ∧
    ((waiting State.reset [.wmemRead 2048]).pending = .wmemRead 2048 :: [] ∧ 2048 ≤ 2048) := by decide

theorem test_witness_ReadReturnsLatestWrite_words :
    (waiting State.reset [.wmemWrite 2047 9, .wmemWrite 2046 1, .csrWrite 1 2048, .wmemRead 2047]).pending =
      .wmemWrite 2047 9 :: [.wmemWrite 2046 1, .csrWrite 1 2048] ++ .wmemRead 2047 :: [] ∧ 2047 < 2048 ∧
    (∀ tr ∈ [Transaction.wmemWrite 2046 1, .csrWrite 1 2048], tr.writesWord 2047 = false) ∧
    ∃ u, core.run 3 (waiting State.reset
      [.wmemWrite 2047 9, .wmemWrite 2046 1, .csrWrite 1 2048, .wmemRead 2047]) = .next u ∧
        decide (2047 < u.dlen.toNat) = true :=
  ⟨by decide, by decide, by decide, exists_of_nextHas (p := fun u => decide (2047 < u.dlen.toNat)) (by decide)⟩

/-- `WIDTH` saturated by the host's write, with `LINBS` and a write to `PLEN` in between. -/
theorem test_witness_ReadReturnsLatestWrite_registers :
    (waiting State.reset [.csrWrite 2 64, .csrWrite 0 17, .csrWrite 7 0x400007C3, .csrRead 2]).pending =
      .csrWrite 2 64 :: [.csrWrite 0 17, .csrWrite 7 0x400007C3] ++ .csrRead 2 :: [] ∧
    (∀ tr ∈ [Transaction.csrWrite 0 17, .csrWrite 7 0x400007C3], tr.writesCsr 2 = false) ∧
    (∃ u, core.run 3 (waiting State.reset
      [.csrWrite 2 64, .csrWrite 0 17, .csrWrite 7 0x400007C3, .csrRead 2]) = .next u ∧ has 63 1987 0 0x00 u = true) ∧
    ∃ u, core.run 3 (waiting (unit 1 0 9 0 0 [])
      [.reset, .csrWrite 0 17, .csrWrite 7 0x400007C3, .csrRead 2]) = .next u ∧ has 0 1987 0 0x00 u = true :=
  ⟨by decide, by decide, exists_of_nextHas (by decide), exists_of_nextHas (by decide)⟩

/-- `RESULT` as an earlier command left it, past a `NOP` and a palette check. -/
theorem test_witness_ReadReturnsLatestWrite_commands :
    (waiting (unit 17 0 8 0 16 []) [.csrWrite 7 0x00000000, .csrWrite 7 0xA0000000, .csrRead 4]).pending =
      [.csrWrite 7 0x00000000, .csrWrite 7 0xA0000000] ++ .csrRead 4 :: [] ∧
    (∀ tr ∈ [Transaction.csrWrite 7 0x00000000, .csrWrite 7 0xA0000000], tr.writesCsr 4 = false) ∧
    ∃ u, core.run 2 (waiting (unit 17 0 8 0 16 [])
      [.csrWrite 7 0x00000000, .csrWrite 7 0xA0000000, .csrRead 4]) = .next u ∧ has 8 0 16 0x00 u = true :=
  ⟨by decide, by decide, exists_of_nextHas (by decide)⟩

theorem test_witness_UnwrittenWordIsRefused :
    (waiting State.reset [.wmemRead 2047]).pending = .wmemRead 2047 :: [] ∧ 2047 < 2048 ∧
    State.reset.wmem.read 2047 = none := by decide

theorem test_witness_ResetAndClr : (waiting (unit 17 2 5 3 31 padded5) [.reset]).pending = .reset :: [] := by decide

theorem test_witness_IdleAndResetKeepQueue :
    (unit 17 2 5 3 31 padded5).pending = [] ∧
    (waiting (unit 17 2 5 3 31 padded5) [.reset, .csrRead 0]).pending = .reset :: [.csrRead 0] := by decide

theorem test_witness_WidthbsComputesWidth :
    (unit 0 0 0 0 0 []).plen.toNat = 0 ∧ (unit 1 0 0 0 0 []).plen.toNat ≠ 0 ∧
    (unit 4294967295 0 0 0 0 []).plen.toNat ≠ 0 := by decide

theorem test_witness_WidthbioComputesWidth :
    (unit 0 0 9 0 0 []).plen.toNat = 0 ∧ (unit 1 0 9 0 0 []).plen.toNat ≠ 0 ∧
    (unit 4294967295 0 9 0 0 []).plen.toNat ≠ 0 := by decide

theorem test_witness_EmptyPaletteFaults : (unit 0 2 5 3 31 padded5).plen.toNat = 0 := by decide

theorem test_witness_WidthIsLeastSufficient :
    (unit 0 0 0 0 0 []).plen.toNat = 0 ∧ .widthbs ∈ [Instr.widthbs, Instr.widthbio] ∧
    1 ≤ (unit 1 0 0 0 0 []).plen.toNat := by decide

theorem test_witness_LinbsComputesIndex :
    4095 < 4096 ∧ (15 : BitVec 4).toNat * 256 + (15 : BitVec 4).toNat * 16 + (15 : BitVec 4).toNat = 4095 := by decide

theorem test_witness_ExtpadExtractsField :
    ((unit 0 2 33 0 0 padded5).width.toNat = 33 ∧ 32 < 33) ∧
    ((unit 0 1 1 64 0 padded5).width.toNat = 1 ∧ (unit 0 1 1 64 0 padded5).idx.toNat = 64 ∧
      (unit 0 1 1 64 0 padded5).dlen.toNat ≤ 64 / (64 / 1)) ∧
    ((unit 0 2 32 3 0 padded5).width.toNat = 32 ∧ (unit 0 2 32 3 0 padded5).idx.toNat = 3 ∧
      3 / (64 / 32) < (unit 0 2 32 3 0 padded5).dlen.toNat ∧
      (unit 0 2 32 3 0 padded5).wmem.read (3 / (64 / 32)) = some 0x105) := by decide

theorem test_witness_ExtspanExtractsField_faults :
    ((unit 0 2 33 0 0 spanning3).width.toNat = 33 ∧ 32 < 33) ∧
    ((unit 0 0 0 5 0 []).width.toNat = 0 ∧ (unit 0 0 0 5 0 []).dlen.toNat ≤ 0 * 5 / 64) ∧
    ((unit 0 1 3 21 0 spanning3).width.toNat = 3 ∧ (unit 0 1 3 21 0 spanning3).idx.toNat = 21 ∧
      64 - 3 * 21 % 64 < 3 ∧ 3 * 21 / 64 < (unit 0 1 3 21 0 spanning3).dlen.toNat ∧
      (unit 0 1 3 21 0 spanning3).dlen.toNat ≤ 3 * 21 / 64 + 1 ∧
      (unit 0 1 3 21 0 spanning3).wmem.read (3 * 21 / 64) = some 0xE33AA1E33AA1E33A) := by decide

theorem test_witness_ExtspanExtractsField_values :
    ((unit 0 2 32 3 0 spanning3).width.toNat = 32 ∧ (unit 0 2 32 3 0 spanning3).idx.toNat = 3 ∧
      32 ≤ 64 - 32 * 3 % 64 ∧ 32 * 3 / 64 < (unit 0 2 32 3 0 spanning3).dlen.toNat ∧
      (unit 0 2 32 3 0 spanning3).wmem.read (32 * 3 / 64) = some 0xA1) ∧
    ((unit 0 2 3 21 0 spanning3).width.toNat = 3 ∧ (unit 0 2 3 21 0 spanning3).idx.toNat = 21 ∧
      64 - 3 * 21 % 64 < 3 ∧ 3 * 21 / 64 + 1 < (unit 0 2 3 21 0 spanning3).dlen.toNat ∧
      (unit 0 2 3 21 0 spanning3).wmem.read (3 * 21 / 64) = some 0xE33AA1E33AA1E33A ∧
      (unit 0 2 3 21 0 spanning3).wmem.read (3 * 21 / 64 + 1) = some 0xA1) := by decide

theorem test_witness_FieldBitsOfBothLayouts :
    (∃ t, exec .extpad (unit 0 2 5 12 0 padded5) = .next t ∧ (t.status.err == 0) = true) ∧
    (unit 0 2 5 12 0 padded5).wmem.read (12 / (64 / 5)) = some 0x105 ∧
    ∃ t, exec .extspan (unit 0 2 3 21 0 spanning3) = .next t ∧ (t.status.err == 0) = true :=
  ⟨exists_of_nextHas (p := fun t => t.status.err == 0) (by decide), by decide,
    exists_of_nextHas (p := fun t => t.status.err == 0) (by decide)⟩

theorem test_witness_ExtspanReadsBitString :
    (unit 0 2 3 42 0 spanning3).loaded ∧ (unit 0 2 3 42 0 spanning3).width.toNat ≤ 32 ∧
    (unit 0 0 0 0 0 []).loaded ∧ (unit 0 0 0 0 0 []).width.toNat ≤ 32 := by
  unfold State.loaded
  decide

theorem test_witness_LayoutsCoincide :
    32 ∈ [1, 2, 4, 8, 16, 32] ∧ (unit 0 2 32 3 0 spanning3).width.toNat ∈ [1, 2, 4, 8, 16, 32] ∧
    (∃ t, exec .extspan (unit 0 2 32 3 0 spanning3) = .next t ∧ has 32 3 0 0x10 t = true) ∧
    (1 ≤ (unit 0 2 3 20 0 spanning3).width.toNat ∧ (unit 0 2 3 20 0 spanning3).width.toNat ≤ 32 ∧
      (unit 0 2 3 20 0 spanning3).idx.toNat < 64 / (unit 0 2 3 20 0 spanning3).width.toNat) ∧
    (31 ∉ [1, 2, 4, 8, 16, 32] ∧ 64 / 31 ≤ 2 ∧ 2 / (64 / 31) < 2048) ∧
    (3 ∉ [1, 2, 4, 8, 16, 32] ∧ 64 / 3 ≤ 43007 ∧ 43007 / (64 / 3) < 2048) :=
  ⟨by decide, by decide, exists_of_nextHas (by decide), by decide⟩

/-- The last field of a full memory: word 2047 at width 32. -/
theorem test_witness_FullMemoryHoldsSection :
    ((unit 0 2048 32 4095 0 []).dlen.toNat = 2048 ∧ (unit 0 2048 32 4095 0 []).idx.toNat < 4096) ∧
    (∃ t, exec .extpad { unit 0 2048 32 4095 0 [] with wmem := [(2047, 7)] } = .next t ∧ has 32 4095 0 0x10 t = true) ∧
    ∃ t, exec .extspan { unit 0 2048 32 4095 0 [] with wmem := [(2047, 7)] } = .next t ∧ has 32 4095 0 0x10 t = true :=
  ⟨by decide, exists_of_nextHas (by decide), exists_of_nextHas (by decide)⟩

/-- The fourteen values of the padded width-5 vector. -/
theorem test_witness_PaddedRoundTrip :
    (unit 0 2 5 12 0 padded5).width.toNat = 5 ∧ (unit 0 2 5 12 0 padded5).idx.toNat = 12 ∧
    (∀ u ∈ [1, 4, 7, 10, 13, 16, 19, 22, 25, 28, 31, 2, 5, 8], u < 2 ^ 5) ∧
    [1, 4, 7, 10, 13, 16, 19, 22, 25, 28, 31, 2, 5, 8][12]? = some 5 ∧
    12 / (64 / 5) < (unit 0 2 5 12 0 padded5).dlen.toNat ∧
    (unit 0 2 5 12 0 padded5).wmem.read (12 / (64 / 5)) = some (BitVec.ofNat 64
      (paddedWord 5 [1, 4, 7, 10, 13, 16, 19, 22, 25, 28, 31, 2, 5, 8] (12 / (64 / 5)))) := by
  refine ⟨by decide, by decide, by decide, by decide, by decide, ?_⟩
  norm_num [paddedWord, Nat.ofDigits, unit, padded5, List.range_succ, Memory.read]
  rfl

/-- The twenty-four values of the spanning width-3 vector. -/
theorem test_witness_SpanningRoundTrip :
    (unit 0 2 3 21 0 spanning3).width.toNat = 3 ∧ (unit 0 2 3 21 0 spanning3).idx.toNat = 21 ∧
    (∀ u ∈ [2, 7, 4, 1, 6, 3, 0, 5, 2, 7, 4, 1, 6, 3, 0, 5, 2, 7, 4, 1, 6, 3, 0, 5], u < 2 ^ 3) ∧
    [2, 7, 4, 1, 6, 3, 0, 5, 2, 7, 4, 1, 6, 3, 0, 5, 2, 7, 4, 1, 6, 3, 0, 5][21]? = some 3 ∧
    3 * 24 ≤ 64 * (unit 0 2 3 21 0 spanning3).dlen.toNat ∧
    (unit 0 2 3 21 0 spanning3).wmem.read 0 = some (BitVec.ofNat 64 (Nat.ofDigits (2 ^ 3)
      [2, 7, 4, 1, 6, 3, 0, 5, 2, 7, 4, 1, 6, 3, 0, 5, 2, 7, 4, 1, 6, 3, 0, 5] / 2 ^ (64 * 0))) ∧
    (unit 0 2 3 21 0 spanning3).wmem.read 1 = some (BitVec.ofNat 64 (Nat.ofDigits (2 ^ 3)
      [2, 7, 4, 1, 6, 3, 0, 5, 2, 7, 4, 1, 6, 3, 0, 5, 2, 7, 4, 1, 6, 3, 0, 5] / 2 ^ (64 * 1))) := by
  refine ⟨by decide, by decide, by decide, by decide, by decide, ?_, ?_⟩ <;>
    norm_num [Nat.ofDigits, unit, spanning3, List.range_succ, Memory.read] <;> rfl

theorem test_witness_ChkpalChecksRange :
    (unit 16 0 8 0 16 []).plen.toNat ≤ (unit 16 0 8 0 16 []).result.toNat ∧
    (unit 17 0 8 0 16 []).result.toNat < (unit 17 0 8 0 16 []).plen.toNat := by decide

theorem test_witness_LookupPrologue :
    .getbio 7 9 3 ∈ [Instr.getbs 7 9 3, Instr.getbio 7 9 3] ∧ (unit 0 2 9 99 5 padded5).plen.toNat = 0 ∧
    (unit 1 0 9 99 5 []).plen.toNat ≠ 0 ∧ (unit 1 0 9 99 5 []).dlen.toNat = 0 := by decide

/-- Width 5 for 17 entries: `GETBS 8, 0, 1` is truncated, `GETBS 5, 0, 0` answers 16, `GETBS 10, 0, 0` finds 31. -/
theorem test_witness_GetbsLooksUp :
    (5 = max (bitlen ((unit 17 2 0 0 0 padded5).plen.toNat - 1)) 4 ∧ (unit 17 2 0 0 0 padded5).plen.toNat ≠ 0 ∧
      (unit 17 2 0 0 0 padded5).dlen.toNat ≠ 0) ∧
    (24 = (0 : BitVec 4).toNat * 256 + (1 : BitVec 4).toNat * 16 + (8 : BitVec 4).toNat ∧
      (unit 17 2 0 0 0 padded5).dlen.toNat ≤ 24 / (64 / 5)) ∧
    ((unit 17 2 0 0 0 padded5).wmem.read (5 / (64 / 5)) = some 0x017F99B4E0D51C81 ∧
      16 = (0x017F99B4E0D51C81 : Word).toNat / 2 ^ ((5 % (64 / 5)) * 5) % 2 ^ 5 ∧
      16 < (unit 17 2 0 0 0 padded5).plen.toNat) ∧
    (31 = (0x017F99B4E0D51C81 : Word).toNat / 2 ^ ((10 % (64 / 5)) * 5) % 2 ^ 5 ∧
      (unit 17 2 0 0 0 padded5).plen.toNat ≤ 31) := by decide

/-- Width 3 for 8 and for 5 entries: sub-cell 42 is truncated, sub-cell 21 answers 3, sub-cell 1 holds 7. -/
theorem test_witness_GetbioLooksUp :
    ((unit 8 2 0 0 0 spanning3).loaded ∧ 3 = bitlen ((unit 8 2 0 0 0 spanning3).plen.toNat - 1) ∧
      (unit 8 2 0 0 0 spanning3).plen.toNat ≠ 0 ∧ (unit 8 2 0 0 0 spanning3).dlen.toNat ≠ 0) ∧
    (42 = ((8 : BitVec 4).toNat / 4) * 16 + ((8 : BitVec 4).toNat / 4) * 4 + (8 : BitVec 4).toNat / 4 ∧
      64 * (unit 8 2 0 0 0 spanning3).dlen.toNat < 3 * 42 + 3) ∧
    (3 = (unit 8 2 0 0 0 spanning3).bitString 2 / 2 ^ (3 * 21) % 2 ^ 3 ∧
      3 * 21 + 3 ≤ 64 * (unit 8 2 0 0 0 spanning3).dlen.toNat ∧ 3 < (unit 8 2 0 0 0 spanning3).plen.toNat) ∧
    (3 = bitlen ((unit 5 2 0 0 0 spanning3).plen.toNat - 1) ∧
      7 = (unit 5 2 0 0 0 spanning3).bitString 2 / 2 ^ (3 * 1) % 2 ^ 3 ∧
      (unit 5 2 0 0 0 spanning3).plen.toNat ≤ 7) := by
  unfold State.loaded
  decide

theorem test_witness_LookupIsItsSequence :
    (unit 17 2 0 0 0 padded5).plen.toNat ≠ 0 ∧ (unit 17 2 0 0 0 padded5).dlen.toNat ≠ 0 := by decide

theorem test_witness_LookupIndexInPalette :
    .getbs 5 0 0 ∈ [Instr.getbs 5 0 0, Instr.getbio 5 0 0] ∧
    ∃ t, exec (.getbs 5 0 0) (unit 17 2 0 0 0 padded5) = .next t ∧ t.status.valid = true :=
  ⟨by decide, exists_of_nextHas (p := fun t => t.status.valid) (by decide)⟩

theorem test_witness_HeightmapUnavailable : (unit 0 2 0 0 0 heights).ctrl = 0 := by decide

/-- Field 8 is a zero field kept by field 9; from field 10 on all are zero. -/
theorem test_witness_HmgetReadsHeight :
    (unit 0 2 0 8 0 heights).ctrl = 0 ∧
    ((heightUnit 2 8 heights).ctrl = 1 ∧ (heightUnit 2 8 heights).loaded ∧ 8 ≤ 9 ∧
      9 < 7 * (heightUnit 2 8 heights).dlen.toNat ∧ (heightUnit 2 8 heights).heightField 9 ≠ 0) ∧
    (heightUnit 2 10 heights).loaded ∧ ∀ j < 14, 10 ≤ j → (heightUnit 2 10 heights).heightField j = 0 := by
  unfold State.loaded
  decide

theorem test_witness_HmlenCountsRetained :
    (unit 0 2 0 0 0 heights).ctrl = 0 ∧ (heightUnit 2 0 heights).ctrl = 1 ∧ (heightUnit 2 0 heights).loaded := by
  unfold State.loaded
  decide

theorem test_witness_HeightmapIsPaddedWidthNine :
    (heightUnit 2 7 heights).loaded ∧ 7 = (heightUnit 2 7 heights).idx.toNat ∧
    7 / 7 < (heightUnit 2 7 heights).dlen.toNat ∧ (heightUnit 2 7 heights).ctrl = 1 ∧
    ∃ u, exec .hmget (heightUnit 2 7 heights) = .next u ∧ (u.status.err == 0) = true := by
  refine ⟨?_, by decide, by decide, by decide, exists_of_nextHas (p := fun u => u.status.err == 0) (by decide)⟩
  unfold State.loaded
  decide

/-- Two memories that differ in bit 63 of word 0 alone. -/
theorem test_witness_HeightmapIgnoresBit63 :
    heightUnit 1 0 [0x9FC80A5208050087] =
      { heightUnit 1 0 [0x1FC80A5208050087] with wmem := (heightUnit 1 0 [0x9FC80A5208050087]).wmem } ∧
    (∀ a, ((heightUnit 1 0 [0x9FC80A5208050087]).wmem.read a).map (fun v => v.toNat % 2 ^ 63) =
      ((heightUnit 1 0 [0x1FC80A5208050087]).wmem.read a).map (fun v => v.toNat % 2 ^ 63)) ∧
    .hmlen ∈ [Instr.hmget, Instr.hmlen] ∧
    ∃ t, exec .hmlen (heightUnit 1 0 [0x1FC80A5208050087]) = .next t ∧ has 0 0 7 0x10 t = true := by
  refine ⟨by decide, fun a => ?_, by decide, exists_of_nextHas (by decide)⟩
  rcases Nat.eq_zero_or_pos a with rfl | h
  · decide
  · have h0 : a ≠ 0 := by omega
    simp [heightUnit, unit, List.range_succ, Memory.read, h0]

theorem test_witness_StepKeepsWellFormed :
    (waiting (unit 17 2 0 0 0 padded5) [.csrWrite 7 0x8000000A]).wf ∧
    ∃ t, step (waiting (unit 17 2 0 0 0 padded5) [.csrWrite 7 0x8000000A]) = .next t ∧ has 5 10 31 0x05 t = true :=
  ⟨by decide, exists_of_nextHas (by decide)⟩

theorem test_witness_OnlyWmemWriteChangesWords :
    (∃ t, exec .extpad (unit 0 2 5 12 0 padded5) = .next t ∧ has 5 12 5 0x10 t = true) ∧
    (∃ t, step (waiting State.reset [.wmemWrite 0 1]) = .next t ∧ (t.wmem != State.reset.wmem) = true) ∧
    ∃ t, step (waiting (unit 0 2 5 12 0 padded5) [.reset]) = .next t ∧ (t.wmem != (unit 0 2 5 12 0 padded5).wmem) = true :=
  ⟨exists_of_nextHas (by decide), exists_of_nextHas (p := fun t => t.wmem != State.reset.wmem) (by decide),
    exists_of_nextHas (p := fun t => t.wmem != (unit 0 2 5 12 0 padded5).wmem) (by decide)⟩

theorem test_witness_CommandsWriteOnlyTheirRegisters :
    (∃ t, exec .chkpal (unit 17 0 8 3 16 []) = .next t ∧ has 8 3 16 0x00 t = true) ∧
    (Instr.chkpal.mnemonic ∉ ["CLR"] ∧ Instr.chkpal.mnemonic ∉ ["CLR", "WIDTHBS", "WIDTHBIO", "GETBS", "GETBIO"] ∧
      Instr.chkpal.mnemonic ∉ ["CLR", "LINBS", "LINBIO", "GETBS", "GETBIO"] ∧
      Instr.chkpal.mnemonic ∉ ["CLR", "EXTPAD", "EXTSPAN", "GETBS", "GETBIO", "HMGET", "HMLEN"]) ∧
    (∃ t, exec .nop (unit 17 0 8 3 16 []) = .next t ∧ has 8 3 16 0x00 t = true) ∧ Instr.nop.mnemonic ∈ ["NOP"] :=
  ⟨exists_of_nextHas (by decide), by decide, exists_of_nextHas (by decide), by decide⟩

theorem test_witness_WidthChangesOnlyByItsWriters :
    (∃ t, step (waiting State.reset [.csrWrite 2 9]) = .next t ∧ (t.width != State.reset.width) = true) ∧
    (∃ t, step (waiting (unit 0 0 9 0 0 []) [.reset]) = .next t ∧ (t.width != (unit 0 0 9 0 0 []).width) = true) ∧
    ∃ t, step (waiting (unit 17 0 9 0 0 []) [.csrWrite 7 0x20000000]) = .next t ∧
      (t.width != (unit 17 0 9 0 0 []).width) = true :=
  ⟨exists_of_nextHas (p := fun t => t.width != State.reset.width) (by decide),
    exists_of_nextHas (p := fun t => t.width != (unit 0 0 9 0 0 []).width) (by decide),
    exists_of_nextHas (p := fun t => t.width != (unit 17 0 9 0 0 []).width) (by decide)⟩

/-- The right side of the equivalence for one cell of the matrix, `GETBS` and `E_RANGE`. -/
theorem test_witness_FaultMatrix :
    canRaise (.getbs 0 0 0) .range = true ∧ (Instr.getbs 10 0 0).mnemonic = (Instr.getbs 0 0 0).mnemonic ∧
    (unit 17 2 0 0 0 padded5).status.err = 0 ∧
    ∃ t, exec (.getbs 10 0 0) (unit 17 2 0 0 0 padded5) = .next t ∧ (t.status.err == FaultCode.range.code) = true :=
  ⟨by decide, by decide, by decide, exists_of_nextHas (p := fun t => t.status.err == FaultCode.range.code) (by decide)⟩

theorem test_witness_FaultWritesStatusAlone :
    (∃ t, exec .extpad (unit 0 2 5 24 9 padded5) = .next t ∧ (t.status.err != 0) = true) ∧ Instr.extpad ≠ .nop ∧
    Instr.extpad.mnemonic ∉ ["GETBS", "GETBIO"] ∧
    ∃ t, exec (.getbs 10 0 0) (unit 17 2 0 0 0 padded5) = .next t ∧ (t.status.err != 0) = true :=
  ⟨exists_of_nextHas (p := fun t => t.status.err != 0) (by decide), by decide, by decide,
    exists_of_nextHas (p := fun t => t.status.err != 0) (by decide)⟩

theorem test_witness_CommandsIdempotent :
    ∃ t, exec (.getbio 4 4 4) (unit 8 2 0 0 0 spanning3) = .next t ∧ has 3 21 3 0x50 t = true :=
  exists_of_nextHas (by decide)

/-- Two states that differ in word 1 alone, which is not below `DLEN`; one use answers, the other is refused. -/
theorem test_witness_WordsBeyondDlenInvisible :
    (unit 0 1 5 0 0 padded5).sameInput (unit 0 1 5 0 0 [0x017F99B4E0D51C81, 0]) ∧
    (∃ t, exec .extpad (unit 0 1 5 0 0 padded5) = .next t ∧ has 5 0 1 0x10 t = true) ∧
    (unit 0 1 5 0 0 []).sameInput { unit 0 1 5 0 0 [] with wmem := [(1, 5)] } ∧
    exec .extpad (unit 0 1 5 0 0 []) = .refused (.unwrittenWord 0) := by
  refine ⟨?_, exists_of_nextHas (by decide), ?_, rfl⟩ <;>
    · unfold State.sameInput
      decide

theorem test_witness_LoadedCommandsAnswer : (unit 17 2 5 0 0 padded5).loaded := by
  unfold State.loaded
  decide

theorem test_witness_RefusedOnlyForUnwrittenWord :
    exec .extpad (unit 0 1 5 0 0 []) = .refused (.unwrittenWord 0) := rfl

/-- `EXTPAD` of field 63 at width 1; `EXTSPAN` of field 0, and of field 21 at width 3 with word 1 unwritten. -/
theorem test_witness_UnwrittenReadsRefuseCommands_extractions :
    (1 = (unit 0 1 1 63 0 []).width.toNat ∧ 0 = (unit 0 1 1 63 0 []).idx.toNat / (64 / 1) ∧
      0 < (unit 0 1 1 63 0 []).dlen.toNat ∧ (unit 0 1 1 63 0 []).wmem.read 0 = none) ∧
    (0 = (unit 0 1 0 5 0 []).width.toNat ∧ 0 < (unit 0 1 0 5 0 []).dlen.toNat ∧
      (unit 0 1 0 5 0 []).wmem.read 0 = none ∧ 0 = 0 * 5 / 64) ∧
    (3 = (unit 0 2 3 21 0 [5]).width.toNat ∧ 63 = 3 * (unit 0 2 3 21 0 [5]).idx.toNat ∧
      (unit 0 2 3 21 0 [5]).wmem.read 1 = none ∧ 1 < (unit 0 2 3 21 0 [5]).dlen.toNat ∧
      1 = 63 / 64 + 1 ∧ 64 - 63 % 64 < 3 ∧ (unit 0 2 3 21 0 [5]).wmem.read (63 / 64) ≠ none) := by decide

/-- `GETBS 15, 0, 0` and `GETBIO 4, 4, 4` (sub-cell 21) on words nothing has written. -/
theorem test_witness_UnwrittenReadsRefuseCommands_lookups :
    ((unit 17 2 0 0 0 [5]).plen.toNat ≠ 0 ∧ 5 = max (bitlen ((unit 17 2 0 0 0 [5]).plen.toNat - 1)) 4 ∧
      1 = ((0 : BitVec 4).toNat * 256 + (0 : BitVec 4).toNat * 16 + (15 : BitVec 4).toNat) / (64 / 5) ∧
      1 < (unit 17 2 0 0 0 [5]).dlen.toNat ∧ (unit 17 2 0 0 0 [5]).wmem.read 1 = none) ∧
    ((unit 8 2 0 0 0 [5]).plen.toNat ≠ 0 ∧ 3 = bitlen ((unit 8 2 0 0 0 [5]).plen.toNat - 1) ∧
      63 = 3 * (((4 : BitVec 4).toNat / 4) * 16 + ((4 : BitVec 4).toNat / 4) * 4 + (4 : BitVec 4).toNat / 4) ∧
      (unit 8 2 0 0 0 [5]).wmem.read 1 = none ∧ 1 < (unit 8 2 0 0 0 [5]).dlen.toNat ∧
      1 = 63 / 64 + 1 ∧ 64 - 63 % 64 < 3 ∧ (unit 8 2 0 0 0 [5]).wmem.read (63 / 64) ≠ none) := by decide

/-- The scan meets word 0, unwritten, below a zero word 1; and below a word 1 that ends it. -/
theorem test_witness_UnwrittenReadsRefuseCommands_heightmap :
    ((heightUnit 2 6 []).ctrl = 1 ∧ 0 < (heightUnit 2 6 []).dlen.toNat ∧ 0 = (heightUnit 2 6 []).idx.toNat / 7) ∧
    (Memory.read [(1, 0)] 0 = none ∧
      ∀ b, 0 < b → b < 2 → ∃ v, Memory.read [(1, 0)] b = some v ∧ v.toNat % 2 ^ 63 = 0) ∧
    (Memory.read [(1, 65)] 0 = none ∧ Memory.read [(1, 65)] 1 = some 65 ∧ (65 : Word).toNat % 2 ^ 63 ≠ 0) := by
  refine ⟨by decide, ⟨rfl, fun b h0 h2 => ?_⟩, by decide⟩
  obtain rfl : b = 1 := by omega
  exact ⟨0, rfl, rfl⟩

theorem test_witness_CanonicalMemoryUnique :
    Memory.wf [(0, 5), (2047, 7)] ∧ ∀ a, Memory.read [(0, 5), (2047, 7)] a = Memory.read [(0, 5), (2047, 7)] a :=
  ⟨by decide, fun _ => rfl⟩

theorem test_witness_HostReadsOutcome :
    Status.err ⟨5, false, false, false⟩ ≠ 0 ∧ Status.err ⟨0, true, true, false⟩ = 0 ∧
    Status.valid ⟨0, true, true, false⟩ = true ∧ Status.valid ⟨0, false, true, false⟩ = false := by decide

end Sys2Proof.Tests
end

section
/-! PROOF. The statements on the registers and the transactions that reach them (10_state.md section 1): what a step
does with each kind of register access, then what the commands do before the unit is configured. -/

namespace Sys2Proof.Machine

/-! ## One step, by the transaction that waits -/

/-- A step with a transaction waiting runs that transaction. -/
theorem step_of_pending {s : State} {tr : Transaction} {rest : List Transaction} (h : s.pending = tr :: rest) :
    step s = runTransaction tr { s with pending := rest } := by
  simp only [step, takeTransaction, h]

/-- A step with a write to `CMD` waiting issues the word (R29). -/
theorem step_of_csrWrite_cmd {s : State} {c : CommandWord} {rest : List Transaction}
    (h : s.pending = .csrWrite 7 c :: rest) :
    step s = issueCommand c { s with pending := rest, reply := .ack } := by
  rw [step_of_pending h]
  rfl

/-- A step with a write to another register waiting stores to it (R21). -/
theorem step_of_csrWrite_store {s : State} {n : Nat} {v : CsrWord} {rest : List Transaction} (hn : n ≠ 7)
    (h : s.pending = .csrWrite n v :: rest) :
    step s = .next ((csrStore n v { s with pending := rest }).setReply .ack) := by
  rw [step_of_pending h]
  exact if_neg hn

/-- A step with a register read waiting replies with the register and changes nothing else (R21). -/
theorem step_of_csrRead {s : State} {n : Nat} {rest : List Transaction} (h : s.pending = .csrRead n :: rest) :
    step s = .next { s with pending := rest, reply := .csr (csrValue n s) } := by
  rw [step_of_pending h]
  rfl

/-- A legal word runs its command. -/
theorem issueCommand_legal {c : CommandWord} {i : Instr} (h : decode c = .ok i) (s : State) :
    issueCommand c s = exec i s := by
  simp only [issueCommand, h]

/-- An illegal word is the fault `E_ILLCMD`, whatever makes it illegal (R86). -/
theorem issueCommand_illegal {c : CommandWord} {e : Illegal} (h : decode c = .error e) (s : State) :
    issueCommand c s = .next (s.raiseFault .illCmd) := by
  simp only [issueCommand, h]

/-! ## Registers that hold nothing -/

/-- `CMD` and the numbers above it read 0 (R29, R30). -/
theorem csrValue_of_seven_le {n : Nat} (hn : 7 ≤ n) (s : State) : csrValue n s = 0 := by
  obtain ⟨k, rfl⟩ := Nat.exists_eq_add_of_le' hn
  rfl

/-- Nothing is stored to the numbers from 7 up (R30). -/
theorem csrStore_of_seven_le {n : Nat} (hn : 7 ≤ n) (v : CsrWord) (s : State) : csrStore n v s = s := by
  obtain ⟨k, rfl⟩ := Nat.exists_eq_add_of_le' hn
  rfl

/-! ## Commands on a unit that is not configured -/

/-- A lookup with an empty palette is the fault `E_PLEN` (R141). -/
theorem lookupPrologue_empty {s : State} (f : State → Micro) (hp : s.plen.toNat = 0) :
    lookupPrologue s f = .faulted (s.raiseFault .plen) :=
  if_pos hp

theorem exec_getbs_empty {s : State} (hp : s.plen.toNat = 0) (x y z : BitVec 4) :
    exec (.getbs x y z) s = .next (s.raiseFault .plen) := by
  simp only [exec, execGetbs, lookupPrologue_empty _ hp, Micro.outcome_faulted]

theorem exec_getbio_empty {s : State} (hp : s.plen.toNat = 0) (x y z : BitVec 4) :
    exec (.getbio x y z) s = .next (s.raiseFault .plen) := by
  simp only [exec, execGetbio, lookupPrologue_empty _ hp, Micro.outcome_faulted]

/-- `EXTPAD` faults with `E_WIDTH` at a width outside 1..32, before it looks at a word (R121). -/
theorem exec_extpad_badWidth {s : State} (hw : s.width.toNat < 1 ∨ 32 < s.width.toNat) :
    exec .extpad s = .next (s.raiseFault .width) := by
  simp only [exec, execExtpad, microExtpad, if_pos hw, Micro.outcome_faulted]

/-- A spanning field whose current word is not below `DLEN` is truncated, crossing or not (R63, R124). -/
theorem spanningField_trunc {s : State} {w k : Nat} (h : s.dlen.toNat ≤ w * k / 64) :
    spanningField s w k = .error (.fault .trunc) := by
  rcases Nat.lt_or_ge (64 - w * k % 64) w with hw | hw
  · rw [spanningField_crossing hw, memRead_trunc h]
  · rw [spanningField_inside hw, memRead_trunc h]

/-- `EXTSPAN` at a usable width faults with `E_TRUNC` when its current word is not below `DLEN` (R124). -/
theorem exec_extspan_trunc {s : State} (hw : s.width.toNat ≤ 32)
    (h : s.dlen.toNat ≤ s.width.toNat * s.idx.toNat / 64) :
    exec .extspan s = .next (s.raiseFault .trunc) := by
  simp only [exec, execExtspan, microExtspan, if_neg (Nat.not_lt.2 hw), spanningField_trunc h, Micro.finish_fault,
    Micro.outcome_faulted]

/-- With `GENFULL` clear `HMGET` reports absence and is no fault (R151). -/
theorem exec_hmget_unavailable {s : State} (hg : s.genfull = false) :
    exec .hmget s = .next (s.setStatus Status.unavailable) := by
  simp only [exec, execHmget, heightmapGate_unavailable hg, Micro.outcome_completed]

/-- With `GENFULL` clear `HMLEN` reports absence and is no fault (R151). -/
theorem exec_hmlen_unavailable {s : State} (hg : s.genfull = false) :
    exec .hmlen s = .next (s.setStatus Status.unavailable) := by
  simp only [exec, execHmlen, heightmapGate_unavailable hg, Micro.outcome_completed]

/-! ## The statements -/

/-- Settles O9: a write to `CMD` is the issue of its word, which is legal or not; a read of `CMD` gives 0. -/
theorem stepRunsDecodedCommand : Obligations.StepRunsDecodedCommand := by
  refine ⟨fun s rest c i hp hc => ?legal, fun s rest c e hp hc => ?illegal, fun s rest hp => ?read⟩
  case legal => rw [step_of_csrWrite_cmd hp, issueCommand_legal hc]
  case illegal =>
    rw [step_of_csrWrite_cmd hp, issueCommand_illegal hc]
    rfl
  case read => rw [step_of_csrRead hp, csrValue_of_seven_le le_rfl]

/-- Settles O12: the numbers from 8 up are not `CMD`, read 0 and are not stored to. -/
theorem nonexistentRegisters : Obligations.NonexistentRegisters := by
  intro s rest n hn
  have hn7 : 7 ≤ n := by omega
  refine ⟨fun hp => ?read, fun v hp => ?write⟩
  case read => rw [step_of_csrRead hp, csrValue_of_seven_le hn7]
  case write =>
    rw [step_of_csrWrite_store (by omega) hp, csrStore_of_seven_le hn7]
    rfl

/-- Settles O18: after reset `PLEN`, `WIDTH`, `DLEN` and `GENFULL` are 0, which is what stops each command. -/
theorem resetValues : Obligations.ResetValues :=
  ⟨⟨rfl, rfl, rfl, rfl, rfl, rfl, rfl, rfl⟩,
    fun x y z => ⟨exec_getbs_empty rfl x y z, exec_getbio_empty rfl x y z⟩,
    exec_extpad_badWidth (.inl Nat.zero_lt_one),
    exec_extspan_trunc (Nat.zero_le _) (Nat.zero_le _),
    exec_hmget_unavailable rfl,
    exec_hmlen_unavailable rfl⟩

end Sys2Proof.Machine
end

section
/-! PROOF. The statements on the opcode map and the illegal words (30_encoding.md sections 3 and 4): what the decoder
does with each format, that a legal word is the word of its command, and what a row of the opcode map says of a
word. -/

namespace Sys2Proof.Machine

/-! ## The fields of a word -/

/-- `c[31:28]` as a number (R81). -/
theorem opField_toNat (c : CommandWord) : (opField c).toNat = c.toNat / 2 ^ 28 := by
  simp only [opField, BitVec.extractLsb'_toNat, Nat.shiftRight_eq_div_pow]
  omega

/-- `c[27:0]` as a number (R81). -/
theorem reservedFieldN_eq_zero_iff (c : CommandWord) : reservedFieldN c = 0 ↔ c.toNat % 2 ^ 28 = 0 := by
  simp [reservedFieldN, ← BitVec.toNat_inj]

/-- `c[27:12]` as a number (R82). -/
theorem reservedFieldC_eq_zero_iff (c : CommandWord) : reservedFieldC c = 0 ↔ c.toNat / 2 ^ 12 % 2 ^ 16 = 0 := by
  simp [reservedFieldC, ← BitVec.toNat_inj, Nat.shiftRight_eq_div_pow]

/-- A word with no reserved bit of format N set is its opcode's format N word (R81). -/
theorem encodeN_opField {c : CommandWord} (h : reservedFieldN c = 0) : encodeN (opField c) = c := by
  have hc : opField c ++ reservedFieldN c = c := BitVec.extractLsb'_append_extractLsb'
  rwa [h] at hc

/-- A word with no reserved bit of format C set is its opcode's format C word on its own coordinates (R82, R83). -/
theorem encodeC_fields {c : CommandWord} (h : reservedFieldC c = 0) :
    encodeC (opField c) (xField c) (yField c) (zField c) = c := by
  have hc : opField c ++ reservedFieldC c ++ yField c ++ zField c ++ xField c = c := by
    simp only [opField, reservedFieldC, yField, zField, xField]
    iterate 4 rw [BitVec.extractLsb'_append_extractLsb'_eq_extractLsb' (by rfl)]
    exact BitVec.extractLsb'_eq_self
  rwa [h] at hc

/-! ## The decoder, by format -/

/-- The opcodes of format N (R84). -/
def opcodesN : List Nat := [0x0, 0x1, 0x2, 0x3, 0x6, 0x7, 0xA, 0xC, 0xD]

/-- The opcodes of format C (R84). -/
def opcodesC : List Nat := [0x4, 0x5, 0x8, 0x9]

/-- The opcodes of no command (R86 (a)). -/
def opcodesReserved : List Nat := [0xB, 0xE, 0xF]

/-- No opcode of format N is of another kind. -/
theorem opcodesN_disjoint : ∀ n ∈ opcodesN, n ∉ opcodesC ∧ n ∉ opcodesReserved := by decide

/-- No opcode of format C is of another kind. -/
theorem opcodesC_disjoint : ∀ n ∈ opcodesC, n ∉ opcodesN ∧ n ∉ opcodesReserved := by decide

/-- What the decoder does with a word: its opcode selects a format N command, a format C command, or none; and the
command selected is the one that the encoder gives this opcode. -/
theorem decode_formats (c : CommandWord) :
    ((opField c).toNat ∈ opcodesN ∧ ∃ i, decode c = decodeN c i ∧ encode i = encodeN (opField c)) ∨
    ((opField c).toNat ∈ opcodesC ∧
      ∃ f, decode c = decodeC c f ∧ ∀ x y z, encode (f x y z) = encodeC (opField c) x y z) ∨
    ((opField c).toNat ∈ opcodesReserved ∧ decode c = .error .reservedOpcode) := by
  have hop : opField c = BitVec.ofNat 4 (opField c).toNat := by simp
  have hlt : (opField c).toNat < 16 := (opField c).isLt
  unfold decode
  split
  case h_5 h | h_6 h | h_9 h | h_10 h =>
    rw [h] at hop ⊢
    exact .inr (.inl ⟨by decide, _, rfl, fun _ _ _ => by rw [hop]; rfl⟩)
  case h_14 =>
    refine .inr (.inr ⟨?_, rfl⟩)
    simp only [opcodesReserved, List.mem_cons, List.not_mem_nil, imp_false] at *
    omega
  all_goals
    rename_i h
    rw [h] at hop ⊢
    exact .inl ⟨by decide, _, rfl, by rw [hop]; rfl⟩

/-- A format N word is refused exactly when a reserved bit is set (R86 (b)). -/
theorem decodeN_error_iff {c : CommandWord} {i : Instr} :
    (∃ e, decodeN c i = .error e) ↔ reservedFieldN c ≠ 0 := by
  unfold decodeN
  split
  case isTrue h => simp [h]
  case isFalse h => exact iff_of_true ⟨_, rfl⟩ h

/-- A format C word is refused exactly when a reserved bit is set (R86 (c)). -/
theorem decodeC_error_iff {c : CommandWord} {f : BitVec 4 → BitVec 4 → BitVec 4 → Instr} :
    (∃ e, decodeC c f = .error e) ↔ reservedFieldC c ≠ 0 := by
  unfold decodeC
  split
  case isTrue h => simp [h]
  case isFalse h => exact iff_of_true ⟨_, rfl⟩ h

/-- A word is illegal exactly by one of the three conditions of R86, on the fields of the word. -/
theorem decode_error_iff (c : CommandWord) :
    (∃ e, decode c = .error e) ↔
      (opField c).toNat ∈ opcodesReserved ∨
      ((opField c).toNat ∈ opcodesN ∧ reservedFieldN c ≠ 0) ∨
      ((opField c).toNat ∈ opcodesC ∧ reservedFieldC c ≠ 0) := by
  rcases decode_formats c with ⟨hop, i, hd, -⟩ | ⟨hop, f, hd, -⟩ | ⟨hop, hd⟩
  case inl =>
    obtain ⟨hC, hR⟩ := opcodesN_disjoint _ hop
    simp [hd, decodeN_error_iff, hop, hC, hR]
  case inr.inl =>
    obtain ⟨hN, hR⟩ := opcodesC_disjoint _ hop
    simp [hd, decodeC_error_iff, hop, hN, hR]
  case inr.inr => exact iff_of_true ⟨_, hd⟩ (.inl hop)

/-- A legal word is the word of the command it decodes to. -/
theorem encode_of_decode_ok {c : CommandWord} {i : Instr} (h : decode c = .ok i) : encode i = c := by
  rcases decode_formats c with ⟨-, j, hd, he⟩ | ⟨-, f, hd, he⟩ | ⟨-, hd⟩
  case inl =>
    rw [hd, decodeN] at h
    split at h <;> cases h
    rw [he, encodeN_opField ‹_›]
  case inr.inl =>
    rw [hd, decodeC] at h
    split at h <;> cases h
    rw [he, encodeC_fields ‹_›]
  case inr.inr =>
    rw [hd] at h
    cases h

/-! ## The rows of the opcode map -/

/-- The word of every command fits the command's own row. -/
theorem encode_fits_row (i : Instr) : Laws.EncodedFitsRow.Statement i := by
  cases i with
  | nop => exact Laws.EncodedFitsRow.nop
  | clr => exact Laws.EncodedFitsRow.clr
  | widthbs => exact Laws.EncodedFitsRow.widthbs
  | widthbio => exact Laws.EncodedFitsRow.widthbio
  | linbs x y z => exact Laws.EncodedFitsRow.linbs x y z
  | linbio x y z => exact Laws.EncodedFitsRow.linbio x y z
  | extpad => exact Laws.EncodedFitsRow.extpad
  | extspan => exact Laws.EncodedFitsRow.extspan
  | getbs x y z => exact Laws.EncodedFitsRow.getbs x y z
  | getbio x y z => exact Laws.EncodedFitsRow.getbio x y z
  | chkpal => exact Laws.EncodedFitsRow.chkpal
  | hmget => exact Laws.EncodedFitsRow.hmget
  | hmlen => exact Laws.EncodedFitsRow.hmlen

/-- A legal word fits the row that has its command's mnemonic. -/
theorem fits_row_of_decode_ok {c : CommandWord} {i : Instr} (h : decode c = .ok i) :
    ∃ r ∈ opcodeRows, r.mnemonic = i.mnemonic ∧ r.fits c = true := by
  have hrow := encode_fits_row i
  rwa [Laws.EncodedFitsRow.Statement, encode_of_decode_ok h] at hrow

/-- Both masks keep the opcode, and no row has an opcode of R86 (a). -/
theorem opcodeRows_op : ∀ r ∈ opcodeRows,
    opField r.mask = BitVec.allOnes 4 ∧ (opField r.pattern).toNat ∉ opcodesReserved := by decide

/-- A format N row fixes bits 27..0 to zero (R81). -/
theorem opcodeRows_formatN : ∀ r ∈ opcodeRows, (opField r.pattern).toNat ∈ opcodesN →
    reservedFieldN r.mask = BitVec.allOnes 28 ∧ reservedFieldN r.pattern = 0 := by decide

/-- A format C row fixes bits 27..12 to zero (R82). -/
theorem opcodeRows_formatC : ∀ r ∈ opcodeRows, (opField r.pattern).toNat ∈ opcodesC →
    reservedFieldC r.mask = BitVec.allOnes 16 ∧ reservedFieldC r.pattern = 0 := by decide

/-- No two rows share an opcode. -/
theorem opcodeRows_op_inj : ∀ r ∈ opcodeRows, ∀ r' ∈ opcodeRows,
    opField r.pattern = opField r'.pattern → r = r' := by decide

/-- No two rows share a mnemonic. -/
theorem opcodeRows_mnemonic_inj : ∀ r ∈ opcodeRows, ∀ r' ∈ opcodeRows,
    r.mnemonic = r'.mnemonic → r = r' := by decide

/-- A field that the mask keeps whole is the same in a word and in the match of a row that the word fits. -/
theorem extractLsb'_of_fits {r : OpcodeRow} {c : CommandWord} (h : r.fits c = true) {start len : Nat}
    (hmask : r.mask.extractLsb' start len = BitVec.allOnes len) :
    c.extractLsb' start len = r.pattern.extractLsb' start len := by
  have hc : c &&& r.mask = r.pattern := by simpa [OpcodeRow.fits] using h
  rw [← hc, BitVec.extractLsb'_and, hmask, BitVec.and_allOnes]

/-- A word that fits a row has the row's opcode. -/
theorem opField_of_fits {r : OpcodeRow} {c : CommandWord} (hr : r ∈ opcodeRows) (h : r.fits c = true) :
    opField c = opField r.pattern :=
  extractLsb'_of_fits h (opcodeRows_op r hr).1

/-- A word fits at most one row. -/
theorem fits_unique {r r' : OpcodeRow} {c : CommandWord} (hr : r ∈ opcodeRows) (hr' : r' ∈ opcodeRows)
    (h : r.fits c = true) (h' : r'.fits c = true) : r = r' :=
  opcodeRows_op_inj r hr r' hr' ((opField_of_fits hr h).symm.trans (opField_of_fits hr' h'))

/-- A word that fits a row meets none of the three conditions of R86, so it is legal. -/
theorem decode_ok_of_fits {r : OpcodeRow} {c : CommandWord} (hr : r ∈ opcodeRows) (h : r.fits c = true) :
    ∃ i, decode c = .ok i := by
  have hop : opField c = opField r.pattern := opField_of_fits hr h
  cases hd : decode c with
  | ok i => exact ⟨i, rfl⟩
  | error e =>
    exfalso
    rcases (decode_error_iff c).1 ⟨e, hd⟩ with hR | ⟨hN, hne⟩ | ⟨hC, hne⟩
    · exact (opcodeRows_op r hr).2 (hop ▸ hR)
    · obtain ⟨hmask, hzero⟩ := opcodeRows_formatN r hr (hop ▸ hN)
      exact hne ((extractLsb'_of_fits h hmask).trans hzero)
    · obtain ⟨hmask, hzero⟩ := opcodeRows_formatC r hr (hop ▸ hC)
      exact hne ((extractLsb'_of_fits h hmask).trans hzero)

/-- A word is the command of a row exactly when it fits the row (R84). -/
theorem decode_mnemonic_iff_fits {r : OpcodeRow} (hr : r ∈ opcodeRows) (c : CommandWord) :
    (∃ i, decode c = .ok i ∧ i.mnemonic = r.mnemonic) ↔ r.fits c = true := by
  constructor
  · rintro ⟨i, hi, hm⟩
    obtain ⟨r', hr', hm', h'⟩ := fits_row_of_decode_ok hi
    rwa [opcodeRows_mnemonic_inj r hr r' hr' (hm.symm.trans hm'.symm)]
  · intro h
    obtain ⟨i, hi⟩ := decode_ok_of_fits hr h
    obtain ⟨r', hr', hm', h'⟩ := fits_row_of_decode_ok hi
    exact ⟨i, hi, by rw [fits_unique hr hr' h h', hm']⟩

/-! ## The statements -/

/-- Settles O3: the rows are those of R84; a row's command is the word that fits the row, and a legal word fits the
row of its command. -/
theorem decodeByMatchAndMask : Obligations.DecodeByMatchAndMask := by
  refine ⟨by decide, fun r hr c => ?iff, fun c i hi => ?legal⟩
  case iff => simpa [OpcodeRow.fits] using decode_mnemonic_iff_fits hr c
  case legal =>
    obtain ⟨r, hr, -, h⟩ := fits_row_of_decode_ok hi
    exact List.any_eq_true.2 ⟨r, hr, h⟩

/-- Settles O4: the conditions of R86 are those of `decode_error_iff` with the fields read as numbers, and an illegal
word does what `issueCommand_illegal` says. -/
theorem illegalWordsExactly : Obligations.IllegalWordsExactly := by
  refine ⟨fun c => ?conditions, fun c s rest e hp hc => ?issue⟩
  case conditions =>
    simpa only [opField_toNat, ne_eq, reservedFieldN_eq_zero_iff, reservedFieldC_eq_zero_iff, opcodesReserved,
      opcodesN, opcodesC] using decode_error_iff c
  case issue =>
    rw [step_of_csrWrite_cmd hp, issueCommand_illegal hc]
    rfl

end Sys2Proof.Machine
end

section
/-! PROOF. The statements on the field width (40_width.md): the two width rules as numbers, what the width commands do
with a palette and without one, then the statements. -/

namespace Sys2Proof.Machine

/-! ## The width rules -/

/-- The biome width is the least that holds every index of a palette of `n` entries (R103). -/
theorem biomeWidth_le_iff {n : Nat} (hn : 1 ≤ n) (w : Nat) : biomeWidth n ≤ w ↔ n ≤ 2 ^ w := by
  rw [biomeWidth, bitlen_le_iff]
  omega

/-- The block-state policy raises the biome width to at least 4 (R100). -/
theorem blockStateWidth_eq (n : Nat) : blockStateWidth n = max (biomeWidth n) 4 := rfl

/-- No palette length that `PLEN` can hold needs more than 32 bits (R101). -/
theorem biomeWidth_plen_le (p : BitVec 32) : biomeWidth p.toNat ≤ 32 := by
  have hp : p.toNat < 2 ^ 32 := p.isLt
  rw [biomeWidth, bitlen_le_iff]
  omega

/-- The block-state width of any palette length is in 4..32 (R100). -/
theorem blockStateWidth_plen_bounds (p : BitVec 32) :
    4 ≤ blockStateWidth p.toNat ∧ blockStateWidth p.toNat ≤ 32 := by
  rw [blockStateWidth_eq]
  exact ⟨le_max_right _ _, max_le (biomeWidth_plen_le p) (by decide)⟩

/-- The six bits of `WIDTH` hold every width up to 32. -/
theorem State.setWidth_width_toNat (s : State) {n : Nat} (hn : n ≤ 32) : (s.setWidth n).width.toNat = n := by
  rw [State.setWidth_width, BitVec.toNat_ofNat, Nat.mod_eq_of_lt (by omega)]

/-! ## The width commands, with a palette and without one -/

/-- `WIDTHBS` with an empty palette is the fault `E_PLEN` (R102). -/
theorem exec_widthbs_empty {s : State} (hp : s.plen.toNat = 0) :
    exec .widthbs s = .next (s.raiseFault .plen) := by
  simp only [exec, execWidthbs, microWidthbs, if_pos hp, Micro.outcome_faulted]

/-- `WIDTHBIO` with an empty palette is the fault `E_PLEN` (R102). -/
theorem exec_widthbio_empty {s : State} (hp : s.plen.toNat = 0) :
    exec .widthbio s = .next (s.raiseFault .plen) := by
  simp only [exec, execWidthbio, microWidthbio, if_pos hp, Micro.outcome_faulted]

/-- `WIDTHBS` with a palette stores the block-state width and clears `STATUS` (R100). -/
theorem exec_widthbs_present {s : State} (hp : s.plen.toNat ≠ 0) :
    exec .widthbs s = .next ((s.setWidth (blockStateWidth s.plen.toNat)).setStatus Status.cleared) := by
  simp only [exec, execWidthbs, microWidthbs, if_neg hp, Micro.outcome_completed]

/-- `WIDTHBIO` with a palette stores the biome width and clears `STATUS` (R101). -/
theorem exec_widthbio_present {s : State} (hp : s.plen.toNat ≠ 0) :
    exec .widthbio s = .next ((s.setWidth (biomeWidth s.plen.toNat)).setStatus Status.cleared) := by
  simp only [exec, execWidthbio, microWidthbio, if_neg hp, Micro.outcome_completed]

/-! ## The statements -/

/-- Settles O22: with a palette `WIDTH` holds the block-state width whole, as that width is in 4..32. -/
theorem widthbsComputesWidth : Obligations.WidthbsComputesWidth := by
  refine ⟨rfl, fun s => ⟨fun hp => exec_widthbs_empty hp, fun hp => ?palette⟩⟩
  case palette =>
    obtain ⟨hlow, hhigh⟩ := blockStateWidth_plen_bounds s.plen
    refine ⟨_, exec_widthbs_present hp, rfl, ?_⟩
    rw [State.setStatus_width, State.setWidth_width_toNat s hhigh]
    exact ⟨rfl, hlow, hhigh⟩

/-- Settles O23: with a palette `WIDTH` holds the biome width whole, as that width is at most 32. -/
theorem widthbioComputesWidth : Obligations.WidthbioComputesWidth := by
  refine ⟨rfl, fun s => ⟨fun hp => exec_widthbio_empty hp, fun hp => ?palette⟩⟩
  case palette =>
    have hhigh := biomeWidth_plen_le s.plen
    refine ⟨_, exec_widthbio_present hp, rfl, ?_⟩
    rw [State.setStatus_width, State.setWidth_width_toNat s hhigh]
    exact ⟨rfl, hhigh⟩

/-- Settles O25: the widths stored are those of the width rules, and `biomeWidth_le_iff` at the biome width itself and
below it says that it suffices and that nothing smaller does. -/
theorem widthIsLeastSufficient : Obligations.WidthIsLeastSufficient := by
  refine fun s => ⟨fun hp i hi => ?empty, fun hp => ?palette⟩
  case empty =>
    rcases List.mem_pair.1 hi with rfl | rfl
    · exact ⟨_, exec_widthbs_empty hp, rfl⟩
    · exact ⟨_, exec_widthbio_empty hp, rfl⟩
  case palette =>
    have hne : s.plen.toNat ≠ 0 := by omega
    refine ⟨_, _, exec_widthbio_present hne, exec_widthbs_present hne, ?_⟩
    simp only [State.setStatus_width, State.setWidth_width_toNat s (biomeWidth_plen_le s.plen),
      State.setWidth_width_toNat s (blockStateWidth_plen_bounds s.plen).2]
    refine ⟨(biomeWidth_le_iff hp _).1 le_rfl, fun v hv => ?least, blockStateWidth_eq _⟩
    case least => exact Nat.lt_of_not_le fun hle => Nat.not_le.2 hv ((biomeWidth_le_iff hp v).2 hle)

/-- Settles O24: all four commands look at `PLEN` first, and the fault changes `STATUS` alone. -/
theorem emptyPaletteFaults : Obligations.EmptyPaletteFaults :=
  fun _ x y z hp =>
    ⟨exec_widthbs_empty hp, exec_widthbio_empty hp, exec_getbs_empty hp x y z, exec_getbio_empty hp x y z⟩

end Sys2Proof.Machine
end

section
/-! PROOF. The statements on the field index (41_index.md): the number of a format C word, the linear index as a
bijection, the sub-cell index in bits, then the statements. -/

namespace Sys2Proof.Machine

/-! ## Bit fields as numbers -/

/-- The bits of `a` above those of `b` are worth `a * 2^n` more. -/
theorem toNat_append_eq_add {m n : Nat} (a : BitVec m) (b : BitVec n) :
    (a ++ b).toNat = a.toNat * 2 ^ n + b.toNat := by
  rw [BitVec.toNat_append, ← Nat.shiftLeft_add_eq_or_of_lt b.isLt, Nat.shiftLeft_eq]

/-- The top two bits of a coordinate are its quotient by 4. -/
theorem topBits_toNat (c : BitVec 4) : (c.extractLsb' 2 2).toNat = c.toNat / 4 := by
  rw [BitVec.extractLsb'_toNat, Nat.shiftRight_eq_div_pow]
  omega

/-! ## The indices -/

/-- A format C word is its opcode above the linear index of its coordinates (R110). -/
theorem encodeC_toNat (op x y z : BitVec 4) :
    (encodeC op x y z).toNat = op.toNat * 2 ^ 28 + linearIndex x y z := by
  simp only [encodeC, linearIndex, toNat_append_eq_add, BitVec.toNat_zero]
  omega

/-- Two triples with one linear index are the same. -/
theorem linearIndex_inj {x y z x' y' z' : BitVec 4} (h : linearIndex x' y' z' = linearIndex x y z) :
    x' = x ∧ y' = y ∧ z' = z := by
  simp only [linearIndex] at h
  simp only [← BitVec.toNat_inj]
  omega

/-- The nibbles of a number below 4096 are the triple that has it as linear index. -/
theorem linearIndex_nibbles {n : Nat} (hn : n < 4096) :
    linearIndex (BitVec.ofNat 4 n) (BitVec.ofNat 4 (n / 256)) (BitVec.ofNat 4 (n / 16)) = n := by
  simp only [linearIndex, BitVec.toNat_ofNat]
  omega

/-- The sub-cell index is the top two bits of y, z and x (R111). -/
theorem subCellIndex_eq_topBits (x y z : BitVec 4) :
    subCellIndex x y z = (y.extractLsb' 2 2 ++ z.extractLsb' 2 2 ++ x.extractLsb' 2 2).toNat := by
  simp only [subCellIndex, toNat_append_eq_add, topBits_toNat]
  omega

/-! ## The index commands -/

/-- `LINBS` stores the linear index and clears `STATUS` (R110). -/
theorem exec_linbs (x y z : BitVec 4) (s : State) :
    exec (.linbs x y z) s = .next ((s.setIdx (linearIndex x y z)).setStatus Status.cleared) := by
  simp only [exec, execLinbs, microLinbs, Micro.outcome_completed]

/-- `LINBIO` stores the sub-cell index and clears `STATUS` (R111). -/
theorem exec_linbio (x y z : BitVec 4) (s : State) :
    exec (.linbio x y z) s = .next ((s.setIdx (subCellIndex x y z)).setStatus Status.cleared) := by
  simp only [exec, execLinbio, microLinbio, Micro.outcome_completed]

/-! ## The statements -/

/-- Settles O26: every number below 4096 is the linear index of its own nibbles, and of no other triple. -/
theorem linbsComputesIndex : Obligations.LinbsComputesIndex := by
  refine ⟨fun s x y z => exec_linbs x y z s, fun x y z => encodeC_toNat 0x4#4 x y z, fun n hn => ?bijection⟩
  case bijection =>
    have hindex := linearIndex_nibbles hn
    exact ⟨_, _, _, hindex, fun x' y' z' h => linearIndex_inj (h.trans hindex.symm)⟩

/-- Settles O27: the index stored is the sub-cell index, and `subCellIndex_eq_topBits` gives its bits. -/
theorem linbioComputesIndex : Obligations.LinbioComputesIndex :=
  ⟨fun s x y z => exec_linbio x y z s, fun x y z => encodeC_toNat 0x5#4 x y z, subCellIndex_eq_topBits⟩

end Sys2Proof.Machine
end

section
/-! PROOF. The statements on the extraction commands (50_extract.md): the bits that a read cuts out of the words, what
each layout's field is and when it is there, the commands on top of the fields, then the statements. -/

namespace Sys2Proof.Machine

/-! ## Cutting bits out of words -/

/-- Shifting right and masking gives the `w` bits from bit `n` up (R11, R12). -/
theorem shr_and_mask (d : Word) (n w : Nat) : shr d n &&& mask w = d.toNat / 2 ^ n % 2 ^ w :=
  Nat.and_two_pow_sub_one_eq_mod _ _

/-- Bit by bit, shifting right and masking. -/
theorem shr_and_mask_testBit (d : Word) (n w i : Nat) :
    (shr d n &&& mask w).testBit i = (decide (i < w) && d.getLsbD (n + i)) := by
  rw [shr_and_mask, Nat.testBit_mod_two_pow, Nat.testBit_div_two_pow, BitVec.testBit_toNat, Nat.add_comm i n]

/-- The two pieces of a field that crosses a word boundary at bit `b` of its current word: the top of that word, and
above it the bottom of the next (R124). -/
def joinPieces (cur nxt : Word) (b w : Nat) : Nat :=
  (shr cur b ||| ((nxt.toNat &&& mask (w - (64 - b))) <<< (64 - b))) &&& mask w

/-- The pieces do not overlap, and the mask over both cuts nothing (R124; log entry 16). -/
theorem joinPieces_eq_add {b w : Nat} (cur nxt : Word) (hb : b ≤ 64) (hw : 64 - b ≤ w) :
    joinPieces cur nxt b w =
      cur.toNat / 2 ^ b + nxt.toNat % 2 ^ (w - (64 - b)) * 2 ^ (64 - b) := by
  have hlo : cur.toNat / 2 ^ b < 2 ^ (64 - b) := by
    refine Nat.div_lt_of_lt_mul ?_
    rw [← pow_add, Nat.add_sub_cancel' hb]
    exact cur.isLt
  have hhi : nxt.toNat % 2 ^ (w - (64 - b)) < 2 ^ (w - (64 - b)) := Nat.mod_lt _ (Nat.two_pow_pos _)
  have hsum : nxt.toNat % 2 ^ (w - (64 - b)) * 2 ^ (64 - b) + cur.toNat / 2 ^ b < 2 ^ w := by
    calc nxt.toNat % 2 ^ (w - (64 - b)) * 2 ^ (64 - b) + cur.toNat / 2 ^ b
        < nxt.toNat % 2 ^ (w - (64 - b)) * 2 ^ (64 - b) + 2 ^ (64 - b) := by omega
      _ = (nxt.toNat % 2 ^ (w - (64 - b)) + 1) * 2 ^ (64 - b) := by rw [Nat.succ_mul]
      _ ≤ 2 ^ (w - (64 - b)) * 2 ^ (64 - b) := Nat.mul_le_mul_right _ hhi
      _ = 2 ^ w := by rw [← pow_add, Nat.sub_add_cancel hw]
  simp only [joinPieces, mask, shr, Nat.and_two_pow_sub_one_eq_mod]
  rw [Nat.lor_comm, ← Nat.shiftLeft_add_eq_or_of_lt hlo, Nat.shiftLeft_eq, Nat.mod_eq_of_lt hsum, Nat.add_comm]

/-- Bit by bit, the joined field comes from the current word below the boundary and from the next word above it. -/
theorem joinPieces_testBit {b : Nat} (cur nxt : Word) (w i : Nat) (hb : b ≤ 64) :
    (joinPieces cur nxt b w).testBit i =
      (decide (i < w) && if b + i < 64 then cur.getLsbD (b + i) else nxt.getLsbD (b + i - 64)) := by
  simp only [joinPieces, mask, shr, Nat.testBit_and, Nat.testBit_or, Nat.testBit_shiftLeft,
    Nat.testBit_two_pow_sub_one, Nat.testBit_div_two_pow, BitVec.testBit_toNat, Nat.add_comm i b]
  rw [Bool.and_comm]
  by_cases hi : i < w
  case neg => simp [hi]
  case pos =>
    by_cases hlow : b + i < 64
    case pos => simp [hlow, show ¬ 64 - b ≤ i by omega]
    case neg =>
      have hcur : cur.getLsbD (b + i) = false := BitVec.getLsbD_of_ge _ _ (by omega)
      rw [show i - (64 - b) = b + i - 64 by omega]
      simp [hlow, hcur, show 64 - b ≤ i by omega, show b + i - 64 < w - (64 - b) by omega]

/-! ## The words as one bit string -/

/-- Bit `p` of the words laid end to end (R120). -/
def State.bitAt (s : State) (p : Nat) : Bool := ((s.wmem.read (p / 64)).getD 0).getLsbD (p % 64)

/-- Bit `i` of word `a` stands at `64 * a + i`. -/
theorem State.bitAt_of_read {s : State} {a i p : Nat} {d : Word} (h : s.wmem.read a = some d) (hi : i < 64)
    (hp : p = 64 * a + i) : s.bitAt p = d.getLsbD i := by
  subst hp
  rw [State.bitAt, show (64 * a + i) / 64 = a by omega, show (64 * a + i) % 64 = i by omega, h]
  rfl

/-- The number `B` over the first `n` words has `n` words of bits. -/
theorem State.bitString_lt (s : State) (n : Nat) : s.bitString n < 2 ^ (64 * n) := by
  induction n with
  | zero => exact Nat.one_pos
  | succ n ih =>
    have hword : s.wordNat n + 1 ≤ 2 ^ 64 := BitVec.isLt _
    calc s.bitString n + s.wordNat n * 2 ^ (64 * n)
        < 2 ^ (64 * n) + s.wordNat n * 2 ^ (64 * n) := Nat.add_lt_add_right ih _
      _ = (s.wordNat n + 1) * 2 ^ (64 * n) := by ring
      _ ≤ 2 ^ 64 * 2 ^ (64 * n) := Nat.mul_le_mul_right _ hword
      _ = 2 ^ (64 * (n + 1)) := by rw [← pow_add, Nat.mul_succ, Nat.add_comm]

/-- The bits of the number `B` are those of the words laid end to end (R125). -/
theorem State.bitString_testBit (s : State) {n p : Nat} (hp : p < 64 * n) :
    (s.bitString n).testBit p = s.bitAt p := by
  induction n with
  | zero => omega
  | succ n ih =>
    rw [State.bitString, Nat.add_comm, Nat.mul_comm, Nat.testBit_two_pow_mul_add _ (s.bitString_lt n)]
    split
    case isTrue hlow => exact ih hlow
    case isFalse hhigh =>
      rw [State.bitAt, show p / 64 = n by omega, show p % 64 = p - 64 * n by omega]
      exact BitVec.testBit_toNat _

/-! ## The reads of a field -/

/-- A read that answers gives a word that was written. -/
theorem read_of_memRead_ok {s : State} {a : Nat} {d : Word} (h : memRead s a = .ok d) :
    s.wmem.read a = some d := by
  rcases memRead_cases s a with ⟨-, hr⟩ | ⟨-, -, hr⟩ | ⟨v, -, hv, hr⟩
  · simp [hr] at h
  · simp [hr] at h
  · rw [hr] at h
    cases h
    exact hv

/-- With the words below `DLEN` written, every read below `DLEN` answers. -/
theorem memRead_of_loaded {s : State} {a : Nat} (hl : s.loaded) (ha : a < s.dlen.toNat) :
    ∃ d, memRead s a = .ok d := by
  obtain ⟨d, hd⟩ := Option.isSome_iff_exists.1 (hl a ha)
  exact ⟨d, memRead_ok ha hd⟩

/-- A padded field that answers is cut from its word. -/
theorem paddedField_ok {s : State} {w k v : Nat} (h : paddedField s w k = .ok v) :
    ∃ d, memRead s (k / (64 / w)) = .ok d ∧ v = shr d ((k % (64 / w)) * w) &&& mask w := by
  rw [paddedField_eq] at h
  cases hr : memRead s (k / (64 / w)) with
  | ok d => exact ⟨d, rfl, by simpa [hr] using h.symm⟩
  | error e => simp [hr] at h

/-- A spanning field that answers is cut from its current word, or joined from that and the next. -/
theorem spanningField_ok {s : State} {w k v : Nat} {b : Bool} (h : spanningField s w k = .ok (v, b)) :
    (w ≤ 64 - w * k % 64 ∧ b = false ∧
      ∃ d, memRead s (w * k / 64) = .ok d ∧ v = shr d (w * k % 64) &&& mask w) ∨
    (64 - w * k % 64 < w ∧ b = true ∧
      ∃ d e, memRead s (w * k / 64) = .ok d ∧ memRead s (w * k / 64 + 1) = .ok e ∧
        v = joinPieces d e (w * k % 64) w) := by
  rcases Nat.lt_or_ge (64 - w * k % 64) w with hw | hw
  · rw [spanningField_crossing hw] at h
    cases hd : memRead s (w * k / 64) with
    | error e => simp [hd] at h
    | ok d =>
      cases he : memRead s (w * k / 64 + 1) with
      | error e => simp [hd, he] at h
      | ok e =>
        simp only [hd, he, Except.ok.injEq, Prod.mk.injEq] at h
        exact .inr ⟨hw, h.2.symm, d, e, rfl, rfl, h.1.symm⟩
  · rw [spanningField_inside hw] at h
    cases hd : memRead s (w * k / 64) with
    | error e => simp [hd] at h
    | ok d =>
      simp only [hd, Except.ok.injEq, Prod.mk.injEq] at h
      exact .inl ⟨hw, h.2.symm, d, rfl, h.1.symm⟩

/-- Bit `i` of a spanning field `k` is bit `w * k + i` of the words laid end to end (R120). -/
theorem spanningField_testBit {s : State} {w k v : Nat} {b : Bool} (h : spanningField s w k = .ok (v, b))
    (hw : w ≤ 64) (i : Nat) : v.testBit i = (decide (i < w) && s.bitAt (w * k + i)) := by
  by_cases hi : i < w
  case neg =>
    rcases spanningField_ok h with ⟨-, -, d, -, rfl⟩ | ⟨-, -, d, e, -, -, rfl⟩
    · rw [shr_and_mask_testBit]
      simp [hi]
    · rw [joinPieces_testBit d e w i (by omega)]
      simp [hi]
  case pos =>
    rcases spanningField_ok h with ⟨hin, -, d, hd, rfl⟩ | ⟨hcross, -, d, e, hd, he, rfl⟩
    · rw [shr_and_mask_testBit, State.bitAt_of_read (read_of_memRead_ok hd)]
      all_goals omega
    · rw [joinPieces_testBit d e w i (by omega)]
      split
      case isTrue hlow => rw [State.bitAt_of_read (read_of_memRead_ok hd) hlow (by omega)]
      case isFalse hhigh =>
        rw [State.bitAt_of_read (i := w * k % 64 + i - 64) (read_of_memRead_ok he) (by omega) (by omega)]

/-- A crossing field whose next word is not below `DLEN` is truncated (R124). -/
theorem spanningField_next_trunc {s : State} {w k : Nat} {d : Word} (hw : 64 - w * k % 64 < w)
    (hd : memRead s (w * k / 64) = .ok d) (hlen : s.dlen.toNat ≤ w * k / 64 + 1) :
    spanningField s w k = .error (.fault .trunc) := by
  rw [spanningField_crossing hw, hd, memRead_trunc hlen]

/-- With the words below `DLEN` written, a field whose last bit is below `64 * DLEN` is there (R125). -/
theorem spanningField_ok_of_loaded {s : State} {w k : Nat} (hl : s.loaded)
    (hcur : w * k / 64 < s.dlen.toNat) (hlast : w * k + w ≤ 64 * s.dlen.toNat) :
    ∃ v b, spanningField s w k = .ok (v, b) := by
  obtain ⟨d, hd⟩ := memRead_of_loaded hl hcur
  rcases Nat.lt_or_ge (64 - w * k % 64) w with hcross | hin
  · obtain ⟨e, he⟩ := memRead_of_loaded hl (show w * k / 64 + 1 < s.dlen.toNat by omega)
    rw [spanningField_crossing hcross, hd, he]
    exact ⟨_, _, rfl⟩
  · rw [spanningField_inside hin, hd]
    exact ⟨_, _, rfl⟩

/-- With the words below `DLEN` written, a field whose last bit is not below `64 * DLEN` is truncated (R125). -/
theorem spanningField_trunc_of_loaded {s : State} {w k : Nat} (hl : s.loaded) (hpos : 1 ≤ w) (hw : w ≤ 64)
    (hlast : 64 * s.dlen.toNat < w * k + w) : spanningField s w k = .error (.fault .trunc) := by
  rcases Nat.lt_or_ge (w * k / 64) s.dlen.toNat with hcur | hcur
  · obtain ⟨d, hd⟩ := memRead_of_loaded hl hcur
    exact spanningField_next_trunc (by omega) hd (by omega)
  · exact spanningField_trunc hcur

/-! ## The extraction commands -/

/-- No fault has code 0 (R171). -/
theorem FaultCode.code_ne_zero (e : FaultCode) : e.code ≠ 0 := by cases e <;> decide

/-- `EXTPAD` at a usable width commits its field, or stops as that stops (R121). -/
theorem exec_extpad_eq {s : State} (h1 : 1 ≤ s.width.toNat) (h32 : s.width.toNat ≤ 32) :
    exec .extpad s = (Micro.finish s (paddedField s s.width.toNat s.idx.toNat) fun v =>
      (s.setResult (BitVec.ofNat 32 v)).setStatus (Status.value false)).outcome := by
  simp only [exec, execExtpad, microExtpad,
    if_neg (show ¬ (s.width.toNat < 1 ∨ Config.widthMax < s.width.toNat) by simp only [Config.widthMax]; omega)]

/-- `EXTSPAN` at a usable width commits its field, or stops as that stops (R124). -/
theorem exec_extspan_eq {s : State} (h32 : s.width.toNat ≤ 32) :
    exec .extspan s = (Micro.finish s (spanningField s s.width.toNat s.idx.toNat) fun v =>
      (s.setResult (BitVec.ofNat 32 v.1)).setStatus (Status.value v.2)).outcome := by
  simp only [exec, execExtspan, microExtspan, if_neg (Nat.not_lt.2 h32)]

/-- `EXTSPAN` faults with `E_WIDTH` above width 32, before it looks at a word (R124). -/
theorem exec_extspan_badWidth {s : State} (hw : 32 < s.width.toNat) :
    exec .extspan s = .next (s.raiseFault .width) := by
  simp only [exec, execExtspan, microExtspan, if_pos hw, Micro.outcome_faulted]

/-- All that an `EXTPAD` that answers can do: give its field at a usable width, or fault. -/
theorem exec_extpad_cases {s t : State} (h : exec .extpad s = .next t) :
    (1 ≤ s.width.toNat ∧ s.width.toNat ≤ 32 ∧ ∃ v, paddedField s s.width.toNat s.idx.toNat = .ok v ∧
      t = (s.setResult (BitVec.ofNat 32 v)).setStatus (Status.value false)) ∨
    ∃ e, t = s.raiseFault e := by
  by_cases hw : s.width.toNat < 1 ∨ 32 < s.width.toNat
  case pos =>
    rw [exec_extpad_badWidth hw] at h
    cases h
    exact .inr ⟨_, rfl⟩
  case neg =>
    obtain ⟨h1, h32⟩ : 1 ≤ s.width.toNat ∧ s.width.toNat ≤ 32 := by omega
    rw [exec_extpad_eq h1 h32] at h
    rcases Micro.finish_cases h with ⟨v, hv, ht⟩ | ⟨e, -, ht⟩
    · exact .inl ⟨h1, h32, v, hv, ht⟩
    · exact .inr ⟨e, ht⟩

/-- All that an `EXTSPAN` that answers can do: give its field at a usable width, or fault. -/
theorem exec_extspan_cases {s t : State} (h : exec .extspan s = .next t) :
    (s.width.toNat ≤ 32 ∧ ∃ v b, spanningField s s.width.toNat s.idx.toNat = .ok (v, b) ∧
      t = (s.setResult (BitVec.ofNat 32 v)).setStatus (Status.value b)) ∨
    ∃ e, t = s.raiseFault e := by
  rcases Nat.lt_or_ge 32 s.width.toNat with hw | h32
  · rw [exec_extspan_badWidth hw] at h
    cases h
    exact .inr ⟨_, rfl⟩
  · rw [exec_extspan_eq h32] at h
    rcases Micro.finish_cases h with ⟨⟨v, b⟩, hv, ht⟩ | ⟨e, -, ht⟩
    · exact .inl ⟨h32, v, b, hv, ht⟩
    · exact .inr ⟨e, ht⟩

/-- `RESULT` holds a field of at most 32 bits whole. -/
theorem ofNat_getLsbD_of_testBit {w v : Nat} {f : Nat → Bool} (hw : w ≤ 32)
    (hv : ∀ i, v.testBit i = (decide (i < w) && f i)) (i : Nat) :
    (BitVec.ofNat 32 v).getLsbD i = (decide (i < w) && f i) := by
  rw [BitVec.getLsbD_ofNat, hv]
  by_cases hi : i < w
  · simp [show i < 32 by omega]
  · simp [hi]

/-- Bit by bit, what `EXTPAD` leaves in `RESULT` (R120). -/
theorem exec_extpad_getLsbD {s t : State} {d : Word} (h : exec .extpad s = .next t) (herr : t.status.err = 0)
    (hd : s.wmem.read (s.idx.toNat / (64 / s.width.toNat)) = some d) (i : Nat) :
    t.result.getLsbD i =
      (decide (i < s.width.toNat) && d.getLsbD ((s.idx.toNat % (64 / s.width.toNat)) * s.width.toNat + i)) := by
  rcases exec_extpad_cases h with ⟨-, h32, v, hv, rfl⟩ | ⟨e, rfl⟩
  · obtain ⟨d', hd', rfl⟩ := paddedField_ok hv
    obtain rfl : d' = d := by simpa [hd] using (read_of_memRead_ok hd').symm
    exact ofNat_getLsbD_of_testBit h32 (shr_and_mask_testBit _ _ _) i
  · exact absurd herr e.code_ne_zero

/-- Bit by bit, what `EXTSPAN` leaves in `RESULT` (R120). -/
theorem exec_extspan_getLsbD {s t : State} (h : exec .extspan s = .next t) (herr : t.status.err = 0) (i : Nat) :
    t.result.getLsbD i =
      (decide (i < s.width.toNat) && s.bitAt (s.width.toNat * s.idx.toNat + i)) := by
  rcases exec_extspan_cases h with ⟨h32, v, b, hv, rfl⟩ | ⟨e, rfl⟩
  · exact ofNat_getLsbD_of_testBit h32 (spanningField_testBit hv (by omega)) i
  · exact absurd herr e.code_ne_zero

/-- With the words below `DLEN` written, an `EXTSPAN` whose field is there ends without an error. -/
theorem exec_extspan_completes {s : State} (hl : s.loaded) (h32 : s.width.toNat ≤ 32)
    (hcur : s.width.toNat * s.idx.toNat / 64 < s.dlen.toNat)
    (hlast : s.width.toNat * s.idx.toNat + s.width.toNat ≤ 64 * s.dlen.toNat) :
    ∃ t, exec .extspan s = .next t ∧ t.status.err = 0 := by
  obtain ⟨v, b, hv⟩ := spanningField_ok_of_loaded hl hcur hlast
  rw [exec_extspan_eq h32, hv]
  exact ⟨_, rfl, rfl⟩

/-- With the words below `DLEN` written, an `EXTPAD` whose word is below `DLEN` ends without an error. -/
theorem exec_extpad_completes {s : State} (hl : s.loaded) (h1 : 1 ≤ s.width.toNat) (h32 : s.width.toNat ≤ 32)
    (hword : s.idx.toNat / (64 / s.width.toNat) < s.dlen.toNat) :
    ∃ t, exec .extpad s = .next t ∧ t.status.err = 0 := by
  obtain ⟨d, hd⟩ := memRead_of_loaded hl hword
  rw [exec_extpad_eq h1 h32, paddedField_eq, hd]
  exact ⟨_, rfl, rfl⟩

/-- A completed `EXTSPAN` gives the field of the number `B` (R125). -/
theorem exec_extspan_bitString {s t : State} (h : exec .extspan s = .next t) (herr : t.status.err = 0) {n : Nat}
    (hlast : s.width.toNat * s.idx.toNat + s.width.toNat ≤ 64 * n) :
    t.result.toNat = s.bitString n / 2 ^ (s.width.toNat * s.idx.toNat) % 2 ^ s.width.toNat := by
  refine Nat.eq_of_testBit_eq fun i => ?_
  rw [BitVec.testBit_toNat, exec_extspan_getLsbD h herr, Nat.testBit_mod_two_pow, Nat.testBit_div_two_pow]
  by_cases hi : i < s.width.toNat
  · rw [State.bitString_testBit s (by omega), Nat.add_comm]
  · simp [hi]

/-! ## Where the layouts coincide -/

/-- Field `k` has the same word and the same first bit in both layouts. -/
def SamePlace (w k : Nat) : Prop := k / (64 / w) = w * k / 64 ∧ (k % (64 / w)) * w = w * k % 64

/-- At a width that divides 64 the padded layout pads nothing. -/
theorem samePlace_of_mul_eq {w : Nat} (hw : 64 / w * w = 64) (k : Nat) : SamePlace w k := by
  have h64 : w * (64 / w) = 64 := by rw [Nat.mul_comm, hw]
  have hpos : 0 < w := Nat.pos_of_ne_zero fun h => by simp [h] at h64
  constructor
  case left => rw [← Nat.mul_div_mul_left k (64 / w) hpos, h64]
  case right => rw [Nat.mul_comm, ← Nat.mul_mod_mul_left, h64]

/-- Both layouts start alike, so they share the fields of word 0. -/
theorem samePlace_of_lt {w k : Nat} (hk : k < 64 / w) : SamePlace w k := by
  have hwk : w * k < 64 := by
    rcases Nat.eq_zero_or_pos w with rfl | hpos
    · simp
    · calc w * k < w * (64 / w) := Nat.mul_lt_mul_of_pos_left hk hpos
        _ ≤ 64 := Nat.mul_div_le 64 w
  constructor
  case left => rw [Nat.div_eq_of_lt hk, Nat.div_eq_of_lt hwk]
  case right => rw [Nat.mod_eq_of_lt hk, Nat.mod_eq_of_lt hwk, Nat.mul_comm]

/-- A padded field does not leave its word. -/
theorem padded_end_le {w : Nat} (h1 : 1 ≤ w) (h64 : w ≤ 64) (k : Nat) : (k % (64 / w)) * w + w ≤ 64 := by
  calc (k % (64 / w)) * w + w = (k % (64 / w) + 1) * w := (Nat.succ_mul _ _).symm
    _ ≤ 64 / w * w := Nat.mul_le_mul_right _ (Nat.mod_lt _ (Nat.div_pos h64 h1))
    _ ≤ 64 := Nat.div_mul_le_self 64 w

/-- A field at the same place in both layouts does not span. -/
theorem spanningField_of_samePlace {s : State} {w k : Nat} (h1 : 1 ≤ w) (h64 : w ≤ 64) (h : SamePlace w k) :
    spanningField s w k = (paddedField s w k).map fun v => (v, false) := by
  obtain ⟨hword, hbit⟩ := h
  have hend := padded_end_le h1 h64 k
  rw [spanningField_inside (by omega), paddedField_eq, hword, hbit]
  cases memRead s (w * k / 64) <;> rfl

/-- On a field at the same place in both layouts the two commands end alike. -/
theorem exec_extpad_eq_exec_extspan {s : State} (h1 : 1 ≤ s.width.toNat) (h32 : s.width.toNat ≤ 32)
    (h : SamePlace s.width.toNat s.idx.toNat) : exec .extpad s = exec .extspan s := by
  rw [exec_extpad_eq h1 h32, exec_extspan_eq h32, spanningField_of_samePlace h1 (by omega) h]
  cases paddedField s s.width.toNat s.idx.toNat with
  | ok v => rfl
  | error e => cases e <;> rfl

/-- `EXTPAD` never sets `SPANNED` (R121). -/
theorem exec_extpad_spanned {s t : State} (h : exec .extpad s = .next t) : t.status.spanned = false := by
  rcases exec_extpad_cases h with ⟨-, -, v, -, rfl⟩ | ⟨e, rfl⟩
  · rfl
  · rfl

/-- The widths at which the layouts are one are those that divide 64. -/
theorem dividingWidths_iff {w : Nat} (h1 : 1 ≤ w) (h32 : w ≤ 32) :
    w ∈ [1, 2, 4, 8, 16, 32] ↔ 64 / w * w = 64 := by
  interval_cases w <;> decide

/-! ## Where the layouts differ -/

/-- All 2048 words written, one bit of them set: bit `b` of word `a`. -/
def oneBitMemory (a b : Nat) : Memory :=
  (List.range 2048).map fun j => (j, if j = a then BitVec.twoPow 64 b else 0)

/-- A unit set up to extract field `k` at width `w` from `oneBitMemory`. -/
def oneBitState (w k a b : Nat) : State :=
  { State.reset with
    width := BitVec.ofNat 6 w, idx := BitVec.ofNat 32 k, dlen := 2048, wmem := oneBitMemory a b }

/-- A read of a memory that lists the words of a function gives the function. -/
theorem Memory.read_map {l : List Nat} (f : Nat → Word) {a : Nat} (ha : a ∈ l) :
    Memory.read (l.map fun j => (j, f j)) a = some (f a) := by
  induction l with
  | nil => simp at ha
  | cons b l ih =>
    simp only [List.map_cons, Memory.read]
    split
    case isTrue hab => rw [hab]
    case isFalse hab => exact ih ((List.mem_cons.1 ha).resolve_left hab)

theorem oneBitMemory_read {j : Nat} (a b : Nat) (hj : j < 2048) :
    (oneBitMemory a b).read j = some (if j = a then BitVec.twoPow 64 b else 0) :=
  Memory.read_map (fun j => if j = a then BitVec.twoPow 64 b else 0) (List.mem_range.2 hj)

theorem oneBitState_read {j : Nat} (w k a b : Nat) (hj : j < 2048) :
    (oneBitState w k a b).wmem.read j = some (if j = a then BitVec.twoPow 64 b else 0) := by
  simp only [oneBitState, oneBitMemory_read a b hj]

@[simp] theorem oneBitState_dlen (w k a b : Nat) : (oneBitState w k a b).dlen.toNat = 2048 := rfl

theorem oneBitState_loaded (w k a b : Nat) : (oneBitState w k a b).loaded := by
  intro j hj
  rw [oneBitState_dlen] at hj
  rw [oneBitState_read w k a b hj]
  rfl

/-- The bits before the one bit set are 0. -/
theorem oneBitState_bitAt_of_lt {w k a b p : Nat} (ha : a < 2048) (hb : b < 64) (hp : p < 64 * a + b) :
    (oneBitState w k a b).bitAt p = false := by
  rw [State.bitAt_of_read (i := p % 64) (oneBitState_read w k a b (show p / 64 < 2048 by omega)) (by omega) (by omega)]
  split
  case isTrue hword => simp [BitVec.getLsbD_twoPow, show b ≠ p % 64 by omega]
  case isFalse => exact BitVec.getLsbD_zero

/-- From the second word on, a width that does not divide 64 puts a field later in the padded layout than in the
spanning one, by the bits that padding left unused in every earlier word. -/
theorem spanning_lt_padded {w k : Nat} (hdiv : 64 / w * w ≠ 64) (hk : 64 / w ≤ k)
    (hfpw : 0 < 64 / w) : w * k < 64 * (k / (64 / w)) + (k % (64 / w)) * w := by
  have hq : 0 < k / (64 / w) := Nat.div_pos hk hfpw
  have hpad : 64 / w * w < 64 := lt_of_le_of_ne (Nat.div_mul_le_self 64 w) hdiv
  calc w * k = w * (64 / w * (k / (64 / w)) + k % (64 / w)) := by rw [Nat.div_add_mod]
    _ = 64 / w * w * (k / (64 / w)) + (k % (64 / w)) * w := by ring
    _ < 64 * (k / (64 / w)) + (k % (64 / w)) * w :=
      Nat.add_lt_add_right (Nat.mul_lt_mul_of_pos_right hpad hq) _

/-- The state in which the first bit of padded field `k`, which lies after the first bit of spanning field `k`, is the
only bit set makes the two results differ in bit 0 (R126). -/
theorem layouts_differ {w k : Nat} (h1 : 1 ≤ w) (h32 : w ≤ 32) (hdiv : 64 / w * w ≠ 64) (hk : 64 / w ≤ k)
    (hword : k / (64 / w) < 2048) :
    ∃ s t u : State, s.width.toNat = w ∧ s.idx.toNat = k ∧ exec .extpad s = .next t ∧ exec .extspan s = .next u ∧
      t.status.err = 0 ∧ u.status.err = 0 ∧ t.result ≠ u.result := by
  have hfpw : 0 < 64 / w := Nat.div_pos (by omega) h1
  have hplace := spanning_lt_padded hdiv hk hfpw
  have hend := padded_end_le h1 (by omega) k
  have hk32 : k < 2 ^ 32 := by
    have hlt : k < 2048 * (64 / w) := (Nat.div_lt_iff_lt_mul hfpw).1 hword
    have hle : 64 / w ≤ 64 := Nat.div_le_self 64 w
    omega
  set s := oneBitState w k (k / (64 / w)) ((k % (64 / w)) * w)
  have hsw : s.width.toNat = w := Nat.mod_eq_of_lt (by omega)
  have hsk : s.idx.toNat = k := Nat.mod_eq_of_lt hk32
  have hlen : s.dlen.toNat = 2048 := oneBitState_dlen _ _ _ _
  have hl : s.loaded := oneBitState_loaded _ _ _ _
  obtain ⟨t, ht, hterr⟩ := exec_extpad_completes hl (by omega) (by omega) (by rwa [hsw, hsk, hlen])
  obtain ⟨u, hu, huerr⟩ := exec_extspan_completes hl (by omega) (by rw [hsw, hsk]; omega)
    (by rw [hsw, hsk]; omega)
  refine ⟨s, t, u, hsw, hsk, ht, hu, hterr, huerr, fun heq => ?_⟩
  have hpad : t.result.getLsbD 0 = true := by
    have hread := oneBitState_read w k (k / (64 / w)) ((k % (64 / w)) * w) hword
    rw [exec_extpad_getLsbD ht hterr (by rw [hsw, hsk]; exact hread), hsw, hsk, if_pos rfl,
      BitVec.getLsbD_twoPow]
    simp [show 0 < w by omega, show (k % (64 / w)) * w < 64 by omega]
  have hspan : u.result.getLsbD 0 = false := by
    rw [exec_extspan_getLsbD hu huerr, hsw, hsk, oneBitState_bitAt_of_lt hword (by omega) (by omega), Bool.and_false]
  rw [heq, hspan] at hpad
  cases hpad

/-! ## The statements -/

/-- Settles O28: the width is looked at first, then the one word that the field is in. -/
theorem extpadExtractsField : Obligations.ExtpadExtractsField := by
  refine ⟨rfl, ?_⟩
  rintro s w k rfl rfl
  refine ⟨fun hw => exec_extpad_badWidth hw, fun h1 h32 hlen => ?trunc, fun d h1 h32 hlen hd => ?value⟩
  case trunc =>
    rw [exec_extpad_eq h1 h32, paddedField_eq, memRead_trunc hlen]
    rfl
  case value =>
    rw [exec_extpad_eq h1 h32, paddedField_eq, memRead_ok hlen hd, ← shr_and_mask]
    rfl

/-- Settles O29: the width is looked at first, then the current word, then, for a field that crosses, the next word;
the pieces of two words do not overlap. -/
theorem extspanExtractsField : Obligations.ExtspanExtractsField := by
  refine ⟨rfl, ?_⟩
  rintro s w p rfl rfl
  refine ⟨fun hw => exec_extspan_badWidth hw, fun h32 hlen => exec_extspan_trunc h32 hlen,
    fun d h32 hin hlen hd => ?inside, fun d h32 hcross hcur hnext hd => ?nextTrunc,
    fun d e h32 hcross hlen hd he => ?crossing⟩
  case inside =>
    rw [exec_extspan_eq h32, spanningField_inside hin, memRead_ok hlen hd, ← shr_and_mask]
    rfl
  case nextTrunc =>
    rw [exec_extspan_eq h32, spanningField_next_trunc hcross (memRead_ok hcur hd) hnext]
    rfl
  case crossing =>
    rw [exec_extspan_eq h32, spanningField_crossing hcross, memRead_ok (by omega) hd, memRead_ok hlen he,
      ← joinPieces_eq_add d e (by omega) hcross.le]
    rfl

/-- Settles O30: bit by bit, a completed extraction leaves the field in `RESULT`. -/
theorem fieldBitsOfBothLayouts : Obligations.FieldBitsOfBothLayouts := by
  constructor
  case left =>
    rintro s t w k d rfl rfl h herr hd i
    exact exec_extpad_getLsbD h herr hd i
  case right =>
    rintro s t w k rfl rfl h herr i
    rw [exec_extspan_getLsbD h herr, Nat.mul_comm]
    rfl

/-- Settles O31: a field whose last bit is in the words below `DLEN` is the field of the number they make; any other
one is truncated. -/
theorem extspanReadsBitString : Obligations.ExtspanReadsBitString := by
  rintro s w k hl rfl rfl h32
  by_cases hfit : s.width.toNat * s.idx.toNat / 64 < s.dlen.toNat ∧
      s.width.toNat * s.idx.toNat + s.width.toNat ≤ 64 * s.dlen.toNat
  case pos =>
    obtain ⟨hcur, hlast⟩ := hfit
    obtain ⟨t, ht, herr⟩ := exec_extspan_completes hl h32 hcur hlast
    refine ⟨t, ht, iff_of_false (by simp [herr]) (by omega), fun _ => ⟨herr, exec_extspan_bitString ht herr hlast⟩⟩
  case neg =>
    have htrunc : spanningField s s.width.toNat s.idx.toNat = .error (.fault .trunc) := by
      rcases Nat.eq_zero_or_pos s.width.toNat with h0 | hpos
      · exact spanningField_trunc (by rw [h0] at hfit ⊢; omega)
      · exact spanningField_trunc_of_loaded hl hpos (by omega) (by omega)
    refine ⟨s.raiseFault .trunc, by rw [exec_extspan_eq h32, htrunc]; rfl, iff_of_true rfl ?_, fun h => absurd rfl h⟩
    rcases Nat.eq_zero_or_pos s.width.toNat with h0 | hpos
    · rw [h0] at hfit ⊢
      omega
    · omega

/-- Settles O32: the commands agree on a field that has the same place in both layouts, and every other field lies
later in the padded layout, where one bit set tells the two apart. -/
theorem layoutsCoincide : Obligations.LayoutsCoincide := by
  have hbounds : ∀ w ∈ [1, 2, 4, 8, 16, 32], 1 ≤ w ∧ w ≤ 32 := by decide
  have hdividing : ∀ w ∈ [1, 2, 4, 8, 16, 32], 64 / w * w = 64 := fun w hw =>
    (dividingWidths_iff (hbounds w hw).1 (hbounds w hw).2).1 hw
  refine ⟨fun w hw => ⟨hdividing w hw, samePlace_of_mul_eq (hdividing w hw)⟩, fun s hw => ?dividing,
    fun s h1 h32 hk => exec_extpad_eq_exec_extspan h1 h32 (samePlace_of_lt hk),
    fun w k h1 h32 hw => layouts_differ h1 h32 ((dividingWidths_iff h1 h32).not.1 hw)⟩
  case dividing =>
    obtain ⟨h1, h32⟩ := hbounds _ hw
    have heq := exec_extpad_eq_exec_extspan h1 h32 (samePlace_of_mul_eq (hdividing _ hw) _)
    exact ⟨heq, fun t ht => exec_extpad_spanned (heq.trans ht)⟩

/-- Settles O36: the check compares `RESULT` with `PLEN` and looks at nothing else. -/
theorem chkpalChecksRange : Obligations.ChkpalChecksRange := by
  refine ⟨rfl, fun s => ⟨fun h => ?outside, fun h => ?inside⟩⟩
  case outside =>
    simp only [exec, execChkpal, microChkpal, if_pos h]
    rfl
  case inside =>
    simp only [exec, execChkpal, microChkpal, if_neg (Nat.not_le.2 h)]
    rfl

end Sys2Proof.Machine
end

section
/-! PROOF. The statements on the whole lookups (43_lookup.md): commands issued one after another as a sequence of
micro-operations, a lookup as its extraction and its check on a placed field, then the statements. -/

namespace Sys2Proof.Machine

/-! ## Commands issued one after another -/

/-- A command that completes hands its state to the next one. -/
theorem runUntilFault_cons_completes {i : Instr} {is : List Instr} {s t : State} (h : exec i s = .next t)
    (herr : t.status.err = 0) : runUntilFault (i :: is) s = runUntilFault is t := by
  simp only [runUntilFault, h, if_pos herr]

/-- A command that faults is the last one (R140). -/
theorem runUntilFault_cons_faults {i : Instr} {is : List Instr} {s t : State} (h : exec i s = .next t)
    (herr : t.status.err ≠ 0) : runUntilFault (i :: is) s = .next t := by
  simp only [runUntilFault, h, if_neg herr]

/-- A command that is refused is the last one. -/
theorem runUntilFault_cons_refused {i : Instr} {is : List Instr} {s : State} {r : Refusal}
    (h : exec i s = .refused r) : runUntilFault (i :: is) s = .refused r := by
  simp only [runUntilFault, h]

/-! ## Commands as micro-operations -/

theorem Micro.andThen_assoc (m : Micro) (f g : State → Micro) :
    (m.andThen f).andThen g = m.andThen fun s => (f s).andThen g := by
  cases m <;> rfl

/-- What `STATUS` holds tells completion from a fault (R8, R34, R175): that is all a host that issues the commands one
by one can see of it. -/
def Micro.Reports : Micro → Prop
  | .completed s => s.status.err = 0
  | .faulted s => s.status.err ≠ 0
  | .refused _ => True

theorem Micro.faulted_reports (s : State) (e : FaultCode) : (Micro.faulted (s.raiseFault e)).Reports :=
  e.code_ne_zero

/-- A micro-operation that ends with its read reports, when what it commits says that there is no error. -/
theorem Micro.finish_reports {α : Type} (s : State) (r : Except Stop α) {commit : α → State}
    (h : ∀ v, (commit v).status.err = 0) : (Micro.finish s r commit).Reports := by
  match r with
  | .ok v => exact h v
  | .error (.fault e) => exact Micro.faulted_reports s e
  | .error (.unwritten a) => trivial

theorem microWidthbs_reports (s : State) : (microWidthbs s).Reports := by
  unfold microWidthbs
  split
  · exact Micro.faulted_reports s _
  · rfl

theorem microWidthbio_reports (s : State) : (microWidthbio s).Reports := by
  unfold microWidthbio
  split
  · exact Micro.faulted_reports s _
  · rfl

theorem microLinbs_reports (x y z : BitVec 4) (s : State) : (microLinbs x y z s).Reports := rfl

theorem microLinbio_reports (x y z : BitVec 4) (s : State) : (microLinbio x y z s).Reports := rfl

theorem microExtpad_reports (s : State) : (microExtpad s).Reports := by
  unfold microExtpad
  split
  · exact Micro.faulted_reports s _
  · exact Micro.finish_reports s _ fun _ => rfl

theorem microExtspan_reports (s : State) : (microExtspan s).Reports := by
  unfold microExtspan
  split
  · exact Micro.faulted_reports s _
  · exact Micro.finish_reports s _ fun _ => rfl

theorem microChkpal_reports (s : State) : (microChkpal s).Reports := by
  unfold microChkpal
  split
  · exact Micro.faulted_reports s _
  · rfl

/-- One link of the correspondence: a command issued before others that end as `f` ends as its micro-operation
followed by `f`. -/
theorem runUntilFault_cons_eq_andThen {i : Instr} {is : List Instr} {s : State} {m : Micro} {f : State → Micro}
    (hm : exec i s = m.outcome) (hr : m.Reports) (hf : ∀ t, runUntilFault is t = (f t).outcome) :
    runUntilFault (i :: is) s = (m.andThen f).outcome := by
  cases m with
  | completed t => rw [runUntilFault_cons_completes hm hr, hf, Micro.andThen_completed]
  | faulted t => rw [runUntilFault_cons_faults hm hr, Micro.andThen_faulted, Micro.outcome_faulted]
  | refused a => rw [runUntilFault_cons_refused hm, Micro.andThen_refused, Micro.outcome_refused]

/-- A command issued alone ends as its micro-operation. -/
theorem runUntilFault_singleton {i : Instr} {s : State} {m : Micro} (hm : exec i s = m.outcome) (hr : m.Reports) :
    runUntilFault [i] s = m.outcome := by
  rw [runUntilFault_cons_eq_andThen (f := .completed) hm hr fun _ => rfl]
  cases m <;> rfl

/-! ## A lookup as its sequence -/

/-- A lookup without a data array gives the default index (R141). -/
theorem lookupPrologue_absent {s : State} (f : State → Micro) (hp : s.plen.toNat ≠ 0) (hd : s.dlen.toNat = 0) :
    lookupPrologue s f = .completed ((s.setResult 0).setStatus Status.absentDefault) := by
  rw [lookupPrologue, if_neg hp, if_pos hd]

theorem exec_getbs_absent {s : State} (hp : s.plen.toNat ≠ 0) (hd : s.dlen.toNat = 0) (x y z : BitVec 4) :
    exec (.getbs x y z) s = .next ((s.setResult 0).setStatus Status.absentDefault) := by
  simp only [exec, execGetbs, lookupPrologue_absent _ hp hd, Micro.outcome_completed]

theorem exec_getbio_absent {s : State} (hp : s.plen.toNat ≠ 0) (hd : s.dlen.toNat = 0) (x y z : BitVec 4) :
    exec (.getbio x y z) s = .next ((s.setResult 0).setStatus Status.absentDefault) := by
  simp only [exec, execGetbio, lookupPrologue_absent _ hp hd, Micro.outcome_completed]

/-- `GETBS` with palette and data ends as its four commands one after another (R140, R142). -/
theorem exec_getbs_eq_sequence {s : State} (hp : s.plen.toNat ≠ 0) (hd : s.dlen.toNat ≠ 0) (x y z : BitVec 4) :
    exec (.getbs x y z) s = runUntilFault [.widthbs, .linbs x y z, .extpad, .chkpal] s := by
  simp only [exec, execGetbs, lookupPrologue_present _ hp hd, Micro.andThen_assoc]
  refine (runUntilFault_cons_eq_andThen rfl (microWidthbs_reports s) fun s₁ => ?_).symm
  refine runUntilFault_cons_eq_andThen rfl (microLinbs_reports x y z s₁) fun s₂ => ?_
  refine runUntilFault_cons_eq_andThen rfl (microExtpad_reports s₂) fun s₃ => ?_
  exact runUntilFault_singleton rfl (microChkpal_reports s₃)

/-- `GETBIO` with palette and data ends as its four commands one after another (R140, R143). -/
theorem exec_getbio_eq_sequence {s : State} (hp : s.plen.toNat ≠ 0) (hd : s.dlen.toNat ≠ 0) (x y z : BitVec 4) :
    exec (.getbio x y z) s = runUntilFault [.widthbio, .linbio x y z, .extspan, .chkpal] s := by
  simp only [exec, execGetbio, lookupPrologue_present _ hp hd, Micro.andThen_assoc]
  refine (runUntilFault_cons_eq_andThen rfl (microWidthbio_reports s) fun s₁ => ?_).symm
  refine runUntilFault_cons_eq_andThen rfl (microLinbio_reports x y z s₁) fun s₂ => ?_
  refine runUntilFault_cons_eq_andThen rfl (microExtspan_reports s₂) fun s₃ => ?_
  exact runUntilFault_singleton rfl (microChkpal_reports s₃)

/-! ## The placed field -/

/-- What the width and the index step of a lookup leave: the width `w` and the index `k` of the field that the next
step reads, and a clear `STATUS` (R100, R101, R110, R111). -/
def State.placeField (s : State) (w k : Nat) : State :=
  { s with width := BitVec.ofNat 6 w, idx := BitVec.ofNat 32 k, status := Status.cleared }

theorem State.placeField_width_toNat (s : State) {w : Nat} (k : Nat) (hw : w ≤ 32) :
    (s.placeField w k).width.toNat = w :=
  s.setWidth_width_toNat hw

theorem State.placeField_idx_toNat (s : State) (w : Nat) {k : Nat} (hk : k < 4096) :
    (s.placeField w k).idx.toNat = k := by
  rw [State.placeField, BitVec.toNat_ofNat, Nat.mod_eq_of_lt (by omega)]

theorem linearIndex_lt (x y z : BitVec 4) : linearIndex x y z < 4096 := by
  unfold linearIndex
  omega

/-- A coordinate is below 16, so the `mod 16` of the sub-cell index does nothing (R111, C10; log entry 16). -/
theorem subCellIndex_eq (x y z : BitVec 4) :
    subCellIndex x y z = (y.toNat / 4) * 16 + (z.toNat / 4) * 4 + x.toNat / 4 := by
  rw [subCellIndex, Nat.mod_eq_of_lt y.isLt]

theorem subCellIndex_lt (x y z : BitVec 4) : subCellIndex x y z < 64 := by
  rw [subCellIndex_eq]
  omega

/-- With palette and data `GETBS` extracts and checks the field placed by its first two steps. -/
theorem exec_getbs_placed {s : State} (hp : s.plen.toNat ≠ 0) (hd : s.dlen.toNat ≠ 0) (x y z : BitVec 4) :
    exec (.getbs x y z) s =
      runUntilFault [.extpad, .chkpal] (s.placeField (blockStateWidth s.plen.toNat) (linearIndex x y z)) := by
  rw [exec_getbs_eq_sequence hp hd, runUntilFault_cons_completes (exec_widthbs_present hp) rfl,
    runUntilFault_cons_completes (exec_linbs x y z _) rfl]
  rfl

/-- With palette and data `GETBIO` extracts and checks the field placed by its first two steps. -/
theorem exec_getbio_placed {s : State} (hp : s.plen.toNat ≠ 0) (hd : s.dlen.toNat ≠ 0) (x y z : BitVec 4) :
    exec (.getbio x y z) s =
      runUntilFault [.extspan, .chkpal] (s.placeField (biomeWidth s.plen.toNat) (subCellIndex x y z)) := by
  rw [exec_getbio_eq_sequence hp hd, runUntilFault_cons_completes (exec_widthbio_present hp) rfl,
    runUntilFault_cons_completes (exec_linbio x y z _) rfl]
  rfl

/-! ## The extraction and the check of the placed field -/

/-- An extracted value below `PLEN` passes the check, which leaves the flags of the extraction (R127). -/
theorem runUntilFault_chkpal_inside {i : Instr} {s : State} {v : Nat} {b : Bool}
    (h : exec i s = .next ((s.setResult (BitVec.ofNat 32 v)).setStatus (Status.value b)))
    (hv : v < s.plen.toNat) :
    runUntilFault [i, .chkpal] s = .next ((s.setResult (BitVec.ofNat 32 v)).setStatus (Status.value b)) := by
  have hfits : (BitVec.ofNat 32 v).toNat = v := Nat.mod_eq_of_lt (hv.trans s.plen.isLt)
  have hcheck := (chkpalChecksRange.2 ((s.setResult (BitVec.ofNat 32 v)).setStatus (Status.value b))).2
    (hfits.trans_lt hv)
  rw [runUntilFault_cons_completes h rfl, runUntilFault_cons_completes hcheck rfl]
  rfl

/-- An extracted value not below `PLEN` faults with `E_RANGE` and stays in `RESULT` (R127, R140). -/
theorem runUntilFault_chkpal_outside {i : Instr} {s : State} {v : Nat} {b : Bool}
    (h : exec i s = .next ((s.setResult (BitVec.ofNat 32 v)).setStatus (Status.value b)))
    (hfits : v < 2 ^ 32) (hv : s.plen.toNat ≤ v) :
    runUntilFault [i, .chkpal] s = .next ((s.setResult (BitVec.ofNat 32 v)).raiseFault .range) := by
  have hcheck := (chkpalChecksRange.2 ((s.setResult (BitVec.ofNat 32 v)).setStatus (Status.value b))).1
    (hv.trans_eq (Nat.mod_eq_of_lt hfits).symm)
  rw [runUntilFault_cons_completes h rfl, runUntilFault_cons_faults hcheck (FaultCode.code_ne_zero .range)]
  rfl

/-- A field of a width up to 32 fits `RESULT`. -/
theorem mod_two_pow_lt_of_le {w : Nat} (n : Nat) (hw : w ≤ 32) : n % 2 ^ w < 2 ^ 32 :=
  (Nat.mod_lt n (Nat.two_pow_pos w)).trans_le (Nat.pow_le_pow_right Nat.two_pos hw)

/-- The number `B` is made of the words alone. -/
theorem State.bitString_congr {s t : State} (h : t.wmem = s.wmem) (n : Nat) : t.bitString n = s.bitString n := by
  induction n with
  | zero => rfl
  | succ n ih => rw [State.bitString, State.bitString, ih, State.wordNat, State.wordNat, h]

/-- With the words below `DLEN` written, an `EXTSPAN` whose field is not all there faults with `E_TRUNC` (R125). -/
theorem exec_extspan_trunc_of_loaded {s : State} (hl : s.loaded) (h32 : s.width.toNat ≤ 32)
    (hlast : 64 * s.dlen.toNat < s.width.toNat * s.idx.toNat + s.width.toNat) :
    exec .extspan s = .next (s.raiseFault .trunc) := by
  have hpos : 1 ≤ s.width.toNat := by
    refine Nat.pos_of_ne_zero fun h0 => ?_
    rw [h0] at hlast
    omega
  rw [exec_extspan_eq h32, spanningField_trunc_of_loaded hl hpos (by omega) hlast, Micro.finish_fault,
    Micro.outcome_faulted]

/-- With data, and the words below `DLEN` written, an `EXTSPAN` whose field is all there gives the field of the number
`B`, and says whether it crossed (R124, R125). -/
theorem exec_extspan_value_of_loaded {s : State} (hl : s.loaded) (h32 : s.width.toNat ≤ 32) (hd : s.dlen.toNat ≠ 0)
    (hlast : s.width.toNat * s.idx.toNat + s.width.toNat ≤ 64 * s.dlen.toNat) :
    exec .extspan s = .next
      ((s.setResult (BitVec.ofNat 32
        (s.bitString s.dlen.toNat / 2 ^ (s.width.toNat * s.idx.toNat) % 2 ^ s.width.toNat))).setStatus
          (Status.value (decide (64 < s.width.toNat * s.idx.toNat % 64 + s.width.toNat)))) := by
  have hcur : s.width.toNat * s.idx.toNat / 64 < s.dlen.toNat := by
    rcases Nat.eq_zero_or_pos s.width.toNat with h0 | hpos
    · rw [h0]
      omega
    · omega
  obtain ⟨t, ht, herr⟩ := exec_extspan_completes hl h32 hcur hlast
  have hresult := exec_extspan_bitString ht herr hlast
  rcases exec_extspan_cases ht with ⟨-, v, b, hfield, rfl⟩ | ⟨e, rfl⟩
  case inr => exact absurd herr e.code_ne_zero
  case inl =>
    have hspanned : b = decide (64 < s.width.toNat * s.idx.toNat % 64 + s.width.toNat) := by
      rcases spanningField_ok hfield with ⟨hin, rfl, -⟩ | ⟨hcross, rfl, -⟩
      · exact (decide_eq_false (by omega)).symm
      · exact (decide_eq_true (by omega)).symm
    rw [ht, ← hresult, ← hspanned, BitVec.ofNat_toNat]
    rfl

/-! ## The statements -/

/-- Settles O37: both lookups begin with the prologue, which looks at `PLEN` and then at `DLEN`. -/
theorem lookupPrologue_bothLookups : Obligations.LookupPrologue := by
  intro s x y z i hi
  rcases List.mem_pair.1 hi with rfl | rfl
  · exact ⟨fun hp => exec_getbs_empty hp x y z, fun hp hd => exec_getbs_absent hp hd x y z⟩
  · exact ⟨fun hp => exec_getbio_empty hp x y z, fun hp hd => exec_getbio_absent hp hd x y z⟩

/-- Settles O40: every step of a lookup reports its end in `STATUS`, so a host that stops at the first fault stops where
the lookup does. -/
theorem lookupIsItsSequence : Obligations.LookupIsItsSequence :=
  fun _ x y z hp hd => ⟨exec_getbs_eq_sequence hp hd x y z, exec_getbio_eq_sequence hp hd x y z⟩

/-- Settles O38: the lookup is the padded extraction and the check of the field that its first steps place. -/
theorem getbsLooksUp : Obligations.GetbsLooksUp := by
  refine ⟨fun x y z => encodeC_toNat 0x8#4 x y z, fun s x y z hp => exec_getbs_empty hp x y z,
    fun s x y z hp hd => exec_getbs_absent hp hd x y z, ?_⟩
  intro s x y z w k hw hk hp hd
  obtain rfl : w = blockStateWidth s.plen.toNat := hw
  obtain rfl : k = linearIndex x y z := hk
  obtain ⟨h4, h32⟩ := blockStateWidth_plen_bounds s.plen
  rw [exec_getbs_placed hp hd]
  obtain ⟨-, htrunc, hvalue⟩ := extpadExtractsField.2
    (s.placeField (blockStateWidth s.plen.toNat) (linearIndex x y z)) _ _
    (s.placeField_width_toNat _ h32).symm (s.placeField_idx_toNat _ (linearIndex_lt x y z)).symm
  refine ⟨fun hlen => ?trunc, ?_⟩
  case trunc => exact runUntilFault_cons_faults (htrunc (by omega) h32 hlen) (FaultCode.code_ne_zero .trunc)
  rintro d v hlen hread rfl
  have hext := hvalue d (by omega) h32 hlen hread
  exact ⟨fun hv => runUntilFault_chkpal_inside hext hv,
    fun hv => runUntilFault_chkpal_outside hext (mod_two_pow_lt_of_le _ h32) hv⟩

/-- Settles O39: the lookup is the spanning extraction and the check of the field that its first steps place; a value
outside the palette loses the mark of the crossing. -/
theorem getbioLooksUp : Obligations.GetbioLooksUp := by
  refine ⟨fun x y z => encodeC_toNat 0x9#4 x y z, fun s x y z hp => exec_getbio_empty hp x y z,
    fun s x y z hp hd => exec_getbio_absent hp hd x y z, ?_⟩
  intro s x y z w k v hl hw hk hp hd hv
  obtain rfl : w = biomeWidth s.plen.toNat := hw
  obtain rfl : k = subCellIndex x y z := hk.trans (subCellIndex_eq x y z).symm
  subst hv
  have h32 := biomeWidth_plen_le s.plen
  rw [exec_getbio_placed hp hd]
  set p := s.placeField (biomeWidth s.plen.toNat) (subCellIndex x y z)
  have hpw : p.width.toNat = biomeWidth s.plen.toNat := s.placeField_width_toNat _ h32
  have hpk : p.idx.toNat = subCellIndex x y z :=
    s.placeField_idx_toNat _ ((subCellIndex_lt x y z).trans (by decide))
  have htrunc := exec_extspan_trunc_of_loaded (s := p) hl (hpw.trans_le h32)
  have hvalue := exec_extspan_value_of_loaded (s := p) hl (hpw.trans_le h32) hd
  rw [hpw, hpk] at htrunc hvalue
  rw [State.bitString_congr (show p.wmem = s.wmem from rfl)] at hvalue
  refine ⟨fun hlast => ?trunc, fun hlast hin => ?inside, fun hlast hout => ?outside⟩
  case trunc => exact runUntilFault_cons_faults (htrunc hlast) (FaultCode.code_ne_zero .trunc)
  case inside => exact runUntilFault_chkpal_inside (hvalue hlast) hin
  case outside => exact runUntilFault_chkpal_outside (hvalue hlast) (mod_two_pow_lt_of_le _ h32) hout

end Sys2Proof.Machine
end

section
/-! PROOF. The statements on the heightmap commands (44_heightmap.md): the heightmap field as the padded field of width
9, the retained length, then what the two commands do with `GENFULL` set and clear. -/

namespace Sys2Proof.Machine

/-! ## The gate -/

/-- Bit 0 is all of `CTRL` and is `GENFULL` (R28). -/
theorem genfull_of_ctrl_one {s : State} (h : s.ctrl = 1) : s.genfull = true := by simp [State.genfull, h]

/-- The other value of `CTRL`: `GENFULL` is clear (R28). -/
theorem genfull_of_ctrl_zero {s : State} (h : s.ctrl = 0) : s.genfull = false := by simp [State.genfull, h]

/-- With `GENFULL` set `HMGET` commits the height of field `IDX`, or stops as that stops (R153). -/
theorem exec_hmget_full {s : State} (hc : s.ctrl = 1) :
    exec .hmget s = (Micro.finish s (heightAt s s.idx.toNat) fun h =>
      (s.setResult (BitVec.ofInt 32 h)).setStatus (Status.value false)).outcome := by
  simp only [exec, execHmget, heightmapGate_full (genfull_of_ctrl_one hc)]

/-- With `GENFULL` set `HMLEN` commits the retained length, or stops as its scan stops (R154). -/
theorem exec_hmlen_full {s : State} (hc : s.ctrl = 1) :
    exec .hmlen s = (Micro.finish s (hmLength s) fun n =>
      (s.setResult (BitVec.ofNat 32 n)).setStatus (Status.value false)).outcome := by
  simp only [exec, execHmlen, heightmapGate_full (genfull_of_ctrl_one hc)]

/-! ## The heightmap field -/

/-- The heightmap layout is the padded layout at width 9, where seven fields fit a word (R156). -/
theorem hmField_eq_paddedField (s : State) (k : Nat) : hmField s k = paddedField s 9 k := by
  rw [hmField_eq, paddedField_eq, Nat.mul_comm 9]
  rfl

/-- The width of a heightmap field is fixed: nothing of it depends on `WIDTH` (R150). -/
theorem hmField_setWidth (s : State) (n k : Nat) : hmField (s.setWidth n) k = hmField s k := rfl

/-- A heightmap field has 9 bits (R150). -/
theorem State.heightField_lt (s : State) (k : Nat) : s.heightField k < 512 := Nat.mod_lt _ (by decide)

/-- With the words below `DLEN` written, every field of those words is there (R150). -/
theorem hmField_of_loaded {s : State} {k : Nat} (hl : s.loaded) (hk : k / 7 < s.dlen.toNat) :
    hmField s k = .ok (s.heightField k) := by
  obtain ⟨d, hd⟩ := memRead_of_loaded hl hk
  have hword : s.wordNat (k / 7) = d.toNat := by rw [State.wordNat, read_of_memRead_ok hd, Option.getD_some]
  have hcut : shr d (9 * (k % 7)) &&& 0x1FF = d.toNat / 2 ^ (9 * (k % 7)) % 512 := shr_and_mask d _ 9
  simp only [hmField_eq, hd, hcut, State.heightField, hword]

/-! ## The retained length -/

/-- Of the first `n` fields `l` are left after the all-zero fields at their end are dropped (R152). -/
def State.Retains (s : State) (n l : Nat) : Prop :=
  l ≤ n ∧ (∀ j, l ≤ j → j < n → s.heightField j = 0) ∧ (0 < l → s.heightField (l - 1) ≠ 0)

/-- The retained fields are those with a non-zero field at or after them (R152, R153). -/
theorem State.Retains.lt_iff {s : State} {n l : Nat} (h : s.Retains n l) (k : Nat) :
    k < l ↔ ∃ j, k ≤ j ∧ j < n ∧ s.heightField j ≠ 0 := by
  obtain ⟨hle, hzero, hlast⟩ := h
  constructor
  case mp => exact fun hk => ⟨l - 1, by omega, by omega, hlast (by omega)⟩
  case mpr =>
    rintro ⟨j, hkj, hjn, hj⟩
    by_contra hlk
    exact hj (hzero j (by omega) hjn)

/-- With the words below `DLEN` written the scan ends, and answers the retained length of all their fields (R152). -/
theorem hmLength_of_loaded {s : State} (hl : s.loaded) :
    ∃ l, hmLength s = .ok l ∧ s.Retains (7 * s.dlen.toNat) l := by
  have hfield : ∀ j, j < 7 * s.dlen.toNat → hmField s j = .ok (s.heightField j) :=
    fun j hj => hmField_of_loaded hl (by omega)
  cases h : hmLength s with
  | error e =>
    obtain ⟨a, -, ha, hnone⟩ := hmTail_error le_rfl h
    have hsome := hl a ha
    simp [hnone] at hsome
  | ok l =>
    obtain ⟨hle, hzero, hlast⟩ : l ≤ 7 * s.dlen.toNat ∧ _ := hmTail_ok h
    refine ⟨l, rfl, hle, fun j hlj hj => ?dropped, fun hpos => ?kept⟩
    case dropped => exact Except.ok.inj ((hfield j hj).symm.trans (hzero j hlj hj))
    case kept =>
      obtain ⟨v, hv, hne⟩ := hlast hpos
      rwa [Except.ok.inj ((hfield (l - 1) (by omega)).symm.trans hv)]

/-! ## The height of a field -/

/-- The check against the retained length comes first, then the read of the field (R153). -/
theorem heightAt_eq {s : State} {l : Nat} (hlen : hmLength s = .ok l) (k : Nat) :
    heightAt s k = if l ≤ k then .error (.fault .noField) else (hmField s k).map heightOf := by
  simp only [heightAt, hlen, bind, Except.bind]
  split
  · rfl
  · cases hmField s k <;> rfl

/-- A height that is answered is that of its own field (R153, R155). -/
theorem heightAt_ok {s : State} {k : Nat} {h : Int} (hat : heightAt s k = .ok h) :
    ∃ v, hmField s k = .ok v ∧ h = heightOf v := by
  cases hlen : hmLength s with
  | error e => simp [heightAt, hlen, bind, Except.bind] at hat
  | ok l =>
    rw [heightAt_eq hlen] at hat
    split at hat
    · cases hat
    · cases hv : hmField s k with
      | error e => simp [hv, Except.map] at hat
      | ok v => exact ⟨v, rfl, by simpa [hv, Except.map] using hat.symm⟩

/-- All that an `HMGET` that answers can do past the gate: give the height of its field, or fault. -/
theorem exec_hmget_cases {s t : State} (hc : s.ctrl = 1) (h : exec .hmget s = .next t) :
    (∃ v, hmField s s.idx.toNat = .ok v ∧
      t = (s.setResult (BitVec.ofInt 32 (heightOf v))).setStatus (Status.value false)) ∨
    ∃ e, t = s.raiseFault e := by
  rw [exec_hmget_full hc] at h
  rcases Micro.finish_cases h with ⟨i, hi, rfl⟩ | ⟨e, -, rfl⟩
  · obtain ⟨v, hv, rfl⟩ := heightAt_ok hi
    exact .inl ⟨v, hv, rfl⟩
  · exact .inr ⟨e, rfl⟩

/-- `EXTPAD` at width 9 gives the heightmap field (R156). -/
theorem exec_extpad_widthNine {s : State} {v : Nat} (hw : s.width.toNat = 9) (hv : hmField s s.idx.toNat = .ok v) :
    exec .extpad s = .next ((s.setResult (BitVec.ofNat 32 v)).setStatus (Status.value false)) := by
  rw [exec_extpad_eq (by omega) (by omega), hw, ← hmField_eq_paddedField, hv, Micro.finish_ok, Micro.outcome_completed]

/-! ## The statements -/

/-- Settles O42: without `GENFULL` the gate ends both commands before a word is read. -/
theorem heightmapUnavailable : Obligations.HeightmapUnavailable :=
  fun _ hc => ⟨exec_hmget_unavailable (genfull_of_ctrl_zero hc), exec_hmlen_unavailable (genfull_of_ctrl_zero hc)⟩

/-- Settles O44: the scan of a loaded array ends with the retained length. -/
theorem hmlenCountsRetained : Obligations.HmlenCountsRetained := by
  refine ⟨rfl, fun s => ⟨fun hc => (heightmapUnavailable s hc).2, fun hc hl => ?_⟩⟩
  obtain ⟨l, hlen, hle, hzero, hlast⟩ := hmLength_of_loaded hl
  refine ⟨l, hle, hzero, hlast, ?_⟩
  rw [exec_hmlen_full hc, hlen]
  rfl

/-- Settles O43: an index is below the retained length exactly when a non-zero field is at or after it. -/
theorem hmgetReadsHeight : Obligations.HmgetReadsHeight := by
  refine ⟨rfl, ?_⟩
  rintro s k rfl
  refine ⟨fun hc => (heightmapUnavailable s hc).1, fun hc hl hex => ?retained, fun hc hl hall => ?dropped⟩
  case retained =>
    obtain ⟨l, hlen, hret⟩ := hmLength_of_loaded hl
    have hlt := (hret.lt_iff _).2 hex
    have hle := hret.1
    rw [exec_hmget_full hc, heightAt_eq hlen, if_neg (by omega), hmField_of_loaded hl (by omega)]
    rfl
  case dropped =>
    obtain ⟨l, hlen, hret⟩ := hmLength_of_loaded hl
    have hle : l ≤ s.idx.toNat := by
      by_contra hlt
      obtain ⟨j, hkj, hjn, hj⟩ := (hret.lt_iff _).1 (not_le.1 hlt)
      exact hj (hall j hkj hjn)
    rw [exec_hmget_full hc, heightAt_eq hlen, if_pos hle]
    rfl

/-- Settles O45: both commands read the one padded field of width 9, and `HMGET` takes 65 off. -/
theorem heightmapIsPaddedWidthNine : Obligations.HeightmapIsPaddedWidthNine := by
  rintro s k hl rfl hword
  have hfield := hmField_of_loaded hl hword
  have hfits : (BitVec.ofNat 32 (s.heightField s.idx.toNat)).toNat = s.heightField s.idx.toNat :=
    Nat.mod_eq_of_lt ((s.heightField_lt _).trans (by decide))
  have hpad := exec_extpad_widthNine (s := s.setWidth 9) rfl ((hmField_setWidth s 9 _).trans hfield)
  refine ⟨_, hpad, rfl, hfits, hfield.trans (congrArg _ hfits.symm), fun u hu hc herr => ?_⟩
  rcases exec_hmget_cases hc hu with ⟨v, hv, rfl⟩ | ⟨e, rfl⟩
  case inr => exact absurd herr e.code_ne_zero
  case inl =>
    obtain rfl : v = s.heightField s.idx.toNat := Except.ok.inj (hv.symm.trans hfield)
    simp only [State.setStatus_result, State.setResult_result, hfits]
    rfl

end Sys2Proof.Machine
end

section
/-! PROOF. The statements on the control commands (45_control.md): what `NOP` and `CLR` do to any state. -/

namespace Sys2Proof.Machine

/-! ## The two commands -/

/-- `NOP` ends in the state it began in (R160). -/
theorem exec_nop (s : State) : exec .nop s = .next s := rfl

/-- `CLR` gives the registers their reset values; the words and the model's own fields stay (R161). -/
theorem exec_clr (s : State) :
    exec .clr s = .next { State.reset with wmem := s.wmem, pending := s.pending, reply := s.reply } := rfl

/-! ## The statements -/

/-- Settles O20: the word has opcode 0 and no reserved bit set, and `exec_nop` writes nothing. -/
theorem nopChangesNothing : Obligations.NopChangesNothing :=
  ⟨rfl, exec_nop⟩

/-- Settles O21: the word has opcode 1 and no reserved bit set, and the reset value of every register is 0. -/
theorem clrClearsRegisters : Obligations.ClrClearsRegisters := by
  refine ⟨rfl, fun s => ?registers⟩
  case registers =>
    rw [exec_clr]
    rfl

end Sys2Proof.Machine
end

section
/-! PROOF. The statement on the fault matrix (60_exceptions.md, R173): a use of a command that ends with a fault code,
the faults each command can end with, one use for every cell of the matrix, then the statement. -/

namespace Sys2Proof.Machine

/-! ## Ending with a fault code -/

/-- The codes tell the faults apart (R171). -/
theorem FaultCode.code_injective : Function.Injective FaultCode.code := by
  intro e f h
  revert h
  cases e <;> cases f <;> decide

/-- The command, issued in `s`, ends with the code of `e` in `STATUS` (R175). -/
def Raises (i : Instr) (s : State) (e : FaultCode) : Prop :=
  ∃ t, exec i s = .next t ∧ t.status.err = e.code

/-- A command that is known to answer `t` ends with the code that `t` holds. -/
theorem raises_iff_of_exec {i : Instr} {s t : State} (h : exec i s = .next t) (e : FaultCode) :
    Raises i s e ↔ t.status.err = e.code := by
  simp [Raises, h]

/-- A command that takes fault `f` ends with that fault and no other. -/
theorem raises_iff_of_fault {i : Instr} {s : State} {f : FaultCode} (h : exec i s = .next (s.raiseFault f))
    (e : FaultCode) : Raises i s e ↔ e = f :=
  (raises_iff_of_exec h e).trans (FaultCode.code_injective.eq_iff.trans eq_comm)

/-- A command that completes ends with no fault. -/
theorem not_raises_of_completes {i : Instr} {s t : State} (h : exec i s = .next t) (herr : t.status.err = 0)
    (e : FaultCode) : ¬ Raises i s e := by
  rw [raises_iff_of_exec h, herr]
  exact e.code_ne_zero.symm

/-- A command that is a read and its commit ends with the fault that stopped the read. -/
theorem Raises.error_of_finish {α : Type} {i : Instr} {s : State} {e : FaultCode} {r : Except Stop α}
    {commit : α → State} (h : Raises i s e) (hexec : exec i s = (Micro.finish s r commit).outcome)
    (hcommit : ∀ v, (commit v).status.err = 0) : r = .error (.fault e) := by
  obtain ⟨t, ht, herr⟩ := h
  rcases Micro.finish_cases (hexec.symm.trans ht) with ⟨v, -, rfl⟩ | ⟨f, hr, rfl⟩
  · exact absurd (herr.symm.trans (hcommit v)) e.code_ne_zero
  · rw [hr, FaultCode.code_injective herr]

/-! ## The faults of the unit's reads -/

theorem memRead_fault {s : State} {a : Nat} {e : FaultCode} (h : memRead s a = .error (.fault e)) :
    e = .trunc ∧ s.dlen.toNat ≤ a := by
  rcases memRead_error h with ⟨he, ha⟩ | ⟨he, -⟩
  · exact ⟨Stop.fault.inj he, ha⟩
  · cases he

/-- The height of a field is never truncated: the retained fields are all below `DLEN` (R152, R153; log entry 14). -/
theorem heightAt_fault {s : State} {k : Nat} {e : FaultCode} (h : heightAt s k = .error (.fault e)) :
    e = .noField := by
  cases hlen : hmLength s with
  | error r =>
    obtain ⟨a, rfl, -⟩ := hmTail_error le_rfl hlen
    simp [heightAt, hlen, bind, Except.bind] at h
  | ok l =>
    have hle : l ≤ 7 * s.dlen.toNat := (hmTail_ok hlen).1
    rw [heightAt_eq hlen] at h
    split at h
    case isTrue => cases h; rfl
    case isFalse hk =>
      cases hfield : hmField s k with
      | ok v => simp [hfield, Except.map] at h
      | error r =>
        obtain rfl : r = .fault e := by simpa [hfield, Except.map] using h
        obtain ⟨-, hword⟩ := memRead_fault (hmField_error hfield)
        omega

/-! ## The faults of each command -/

theorem raises_widthbs_iff {s : State} {e : FaultCode} : Raises .widthbs s e ↔ s.plen.toNat = 0 ∧ e = .plen := by
  by_cases hp : s.plen.toNat = 0
  · simp [raises_iff_of_fault (exec_widthbs_empty hp), hp]
  · simp [not_raises_of_completes (exec_widthbs_present hp) rfl, hp]

theorem raises_widthbio_iff {s : State} {e : FaultCode} : Raises .widthbio s e ↔ s.plen.toNat = 0 ∧ e = .plen := by
  by_cases hp : s.plen.toNat = 0
  · simp [raises_iff_of_fault (exec_widthbio_empty hp), hp]
  · simp [not_raises_of_completes (exec_widthbio_present hp) rfl, hp]

theorem raises_chkpal_iff {s : State} {e : FaultCode} :
    Raises .chkpal s e ↔ s.plen.toNat ≤ s.result.toNat ∧ e = .range := by
  obtain ⟨houtside, hinside⟩ := chkpalChecksRange.2 s
  by_cases h : s.plen.toNat ≤ s.result.toNat
  · simp [raises_iff_of_fault (f := .range) (houtside h), h]
  · simp [not_raises_of_completes (hinside (not_le.1 h)) rfl, h]

/-- Past the check of `WIDTH` an `EXTPAD` can only be truncated (R121). -/
theorem Raises.of_extpad {s : State} {e : FaultCode} (h : Raises .extpad s e) :
    (e = .width ∧ (s.width.toNat < 1 ∨ 32 < s.width.toNat)) ∨ e = .trunc := by
  by_cases hw : s.width.toNat < 1 ∨ 32 < s.width.toNat
  case pos => exact .inl ⟨(raises_iff_of_fault (exec_extpad_badWidth hw) e).1 h, hw⟩
  case neg =>
    have hfield := h.error_of_finish (exec_extpad_eq (by omega) (by omega)) fun _ => rfl
    exact .inr (memRead_fault (paddedField_error hfield)).1

/-- Past the check of `WIDTH` an `EXTSPAN` can only be truncated, at its current word or at the next (R124). -/
theorem Raises.of_extspan {s : State} {e : FaultCode} (h : Raises .extspan s e) :
    (e = .width ∧ 32 < s.width.toNat) ∨ e = .trunc := by
  rcases Nat.lt_or_ge 32 s.width.toNat with hw | h32
  · exact .inl ⟨(raises_iff_of_fault (exec_extspan_badWidth hw) e).1 h, hw⟩
  · have hfield := h.error_of_finish (exec_extspan_eq h32) fun _ => rfl
    rcases spanningField_error hfield with hcur | hnext
    · exact .inr (memRead_fault hcur).1
    · exact .inr (memRead_fault hnext).1

/-- Past the gate `HMGET` can only find no field (R151, R153). -/
theorem Raises.of_hmget {s : State} {e : FaultCode} (h : Raises .hmget s e) : e = .noField := by
  rcases BitVec.eq_zero_or_eq_one s.ctrl with hc | hc
  · exact absurd h (not_raises_of_completes (heightmapUnavailable s hc).1 rfl e)
  · exact heightAt_fault (h.error_of_finish (exec_hmget_full hc) fun _ => rfl)

/-- `HMLEN` completes whenever it answers: the gate is no fault, and the scan stays below `DLEN` (R151, R154). -/
theorem not_raises_hmlen (s : State) (e : FaultCode) : ¬ Raises .hmlen s e := by
  intro h
  rcases BitVec.eq_zero_or_eq_one s.ctrl with hc | hc
  · exact not_raises_of_completes (heightmapUnavailable s hc).2 rfl e h
  · obtain ⟨a, hstop, -⟩ := hmTail_error le_rfl (h.error_of_finish (exec_hmlen_full hc) fun _ => rfl)
    cases hstop

/-- All that a sequence that answers can do: end with its first command's fault, or go on from where that command
completed (R140). -/
theorem runUntilFault_cons_cases {i : Instr} {is : List Instr} {s t : State}
    (h : runUntilFault (i :: is) s = .next t) :
    exec i s = .next t ∨ ∃ u, exec i s = .next u ∧ runUntilFault is u = .next t := by
  cases hi : exec i s with
  | fault f => cases f
  | refused r => simp [runUntilFault_cons_refused hi] at h
  | next u =>
    by_cases herr : u.status.err = 0
    · exact .inr ⟨u, rfl, (runUntilFault_cons_completes hi herr).symm.trans h⟩
    · exact .inl ((runUntilFault_cons_faults hi herr).symm.trans h)

/-- A lookup whose extraction `j` of the placed field can only be truncated has three faults: that of its prologue, that
of the extraction and that of the palette check (R141, R142, R143). -/
theorem Raises.of_lookup {i j : Instr} {s p t : State} {e : FaultCode} (h : Raises i s e)
    (hempty : s.plen.toNat = 0 → exec i s = .next (s.raiseFault .plen))
    (habsent : s.plen.toNat ≠ 0 → s.dlen.toNat = 0 → exec i s = .next t) (hcompletes : t.status.err = 0)
    (hplaced : s.plen.toNat ≠ 0 → s.dlen.toNat ≠ 0 → exec i s = runUntilFault [j, .chkpal] p)
    (htrunc : Raises j p e → e = .trunc) : e = .plen ∨ e = .trunc ∨ e = .range := by
  by_cases hp : s.plen.toNat = 0
  case pos => exact .inl ((raises_iff_of_fault (hempty hp) e).1 h)
  by_cases hd : s.dlen.toNat = 0
  case pos => exact absurd h (not_raises_of_completes (habsent hp hd) hcompletes e)
  obtain ⟨u, hu, herr⟩ := h
  rcases runUntilFault_cons_cases ((hplaced hp hd).symm.trans hu) with hext | ⟨v, -, hrest⟩
  case inl => exact .inr (.inl (htrunc ⟨u, hext, herr⟩))
  have hchk : exec .chkpal v = .next u := by
    rcases runUntilFault_cons_cases hrest with hchk | ⟨w, hchk, hnil⟩
    · exact hchk
    · exact hchk.trans hnil
  exact .inr (.inr (raises_chkpal_iff.1 ⟨u, hchk, herr⟩).2)

/-- A `GETBS` never ends with `E_WIDTH`: the width it computes is in 4..32 (R100, R142). -/
theorem Raises.of_getbs {s : State} {x y z : BitVec 4} {e : FaultCode} (h : Raises (.getbs x y z) s e) :
    e = .plen ∨ e = .trunc ∨ e = .range := by
  refine h.of_lookup (exec_getbs_empty · x y z) (exec_getbs_absent · · x y z) rfl (exec_getbs_placed · · x y z)
    fun hext => ?_
  obtain ⟨h4, h32⟩ := blockStateWidth_plen_bounds s.plen
  have hwidth := s.placeField_width_toNat (linearIndex x y z) h32
  exact hext.of_extpad.resolve_left fun ⟨_, hbad⟩ => by omega

/-- A `GETBIO` never ends with `E_WIDTH`: the width it computes is at most 32 (R101, R143). -/
theorem Raises.of_getbio {s : State} {x y z : BitVec 4} {e : FaultCode} (h : Raises (.getbio x y z) s e) :
    e = .plen ∨ e = .trunc ∨ e = .range := by
  refine h.of_lookup (exec_getbio_empty · x y z) (exec_getbio_absent · · x y z) rfl (exec_getbio_placed · · x y z)
    fun hext => ?_
  have h32 := biomeWidth_plen_le s.plen
  have hwidth := s.placeField_width_toNat (subCellIndex x y z) h32
  exact hext.of_extspan.resolve_left fun ⟨_, hbad⟩ => by omega

/-- No command ends with a fault that the matrix does not give it (R173). `NOP` keeps an older code, so `s` has none. -/
theorem canRaise_of_raises {i : Instr} {s : State} {e : FaultCode} (h : Raises i s e) (hs : s.status.err = 0) :
    canRaise i e = true := by
  cases i with
  | nop => exact absurd h (not_raises_of_completes (exec_nop s) hs e)
  | clr => exact absurd h (not_raises_of_completes (exec_clr s) rfl e)
  | widthbs => simp [canRaise, (raises_widthbs_iff.1 h).2]
  | widthbio => simp [canRaise, (raises_widthbio_iff.1 h).2]
  | linbs x y z => exact absurd h (not_raises_of_completes (exec_linbs x y z s) rfl e)
  | linbio x y z => exact absurd h (not_raises_of_completes (exec_linbio x y z s) rfl e)
  | extpad => rcases h.of_extpad with ⟨rfl, -⟩ | rfl <;> rfl
  | extspan => rcases h.of_extspan with ⟨rfl, -⟩ | rfl <;> rfl
  | getbs x y z => rcases h.of_getbs with rfl | rfl | rfl <;> rfl
  | getbio x y z => rcases h.of_getbio with rfl | rfl | rfl <;> rfl
  | chkpal => simp [canRaise, (raises_chkpal_iff.1 h).2]
  | hmget => simp [canRaise, h.of_hmget]
  | hmlen => exact absurd h (not_raises_hmlen s e)

/-! ## A use for every cell of the matrix -/

/-- A use of a command, and the fault it is meant to end with. -/
structure FaultUse where
  /-- The command. -/
  instr : Instr
  /-- The state it is issued in. -/
  state : State
  /-- The fault. -/
  fault : FaultCode

/-- One use for every cell of the matrix (R173). The truncated lookups read the last field, with one word of data. -/
def faultUses : List FaultUse :=
  [⟨.widthbs, State.reset, .plen⟩,
   ⟨.widthbio, State.reset, .plen⟩,
   ⟨.extpad, State.reset, .width⟩,
   ⟨.extpad, { State.reset with width := 1 }, .trunc⟩,
   ⟨.extspan, { State.reset with width := 33 }, .width⟩,
   ⟨.extspan, State.reset, .trunc⟩,
   ⟨.chkpal, State.reset, .range⟩,
   ⟨.getbs 0 0 0, State.reset, .plen⟩,
   ⟨.getbs 15 15 15, { State.reset with plen := 1, dlen := 1 }, .trunc⟩,
   ⟨.getbs 0 0 0, { State.reset with plen := 1, dlen := 1, wmem := [(0, 1)] }, .range⟩,
   ⟨.getbio 0 0 0, State.reset, .plen⟩,
   ⟨.getbio 15 15 15, { State.reset with plen := 3, dlen := 1 }, .trunc⟩,
   ⟨.getbio 0 0 0, { State.reset with plen := 3, dlen := 1, wmem := [(0, 3)] }, .range⟩,
   ⟨.hmget, { State.reset with ctrl := 1 }, .noField⟩]

/-- The uses are of the cells of the matrix; so a cell depends on a command's mnemonic alone. -/
theorem canRaise_iff_faultUses (i : Instr) (e : FaultCode) :
    canRaise i e = true ↔ ∃ u ∈ faultUses, u.instr.mnemonic = i.mnemonic ∧ e = u.fault := by
  cases i <;> simp [canRaise, faultUses, Instr.mnemonic, or_assoc]

/-- Every use begins without an error and ends with its fault. -/
theorem faultUses_raise : ∀ u ∈ faultUses, u.state.status.err = 0 ∧ Raises u.instr u.state u.fault := by
  intro u hu
  fin_cases hu <;> exact ⟨rfl, _, rfl, rfl⟩

/-! ## The statement -/

/-- Settles O52: the uses listed show every fault that the matrix gives, and `canRaise_of_raises` shows that there is no
other; neither side looks at more of the command than its mnemonic. -/
theorem faultMatrix : Obligations.FaultMatrix := by
  intro i e
  rw [canRaise_iff_faultUses]
  constructor
  case mp =>
    rintro ⟨u, hu, hname, rfl⟩
    obtain ⟨hs, t, ht, herr⟩ := faultUses_raise u hu
    exact ⟨u.instr, u.state, t, hname, hs, ht, herr⟩
  case mpr =>
    rintro ⟨j, s, t, hname, hs, ht, herr⟩
    have hraises : Raises j s e := ⟨t, ht, herr⟩
    rw [← hname]
    exact (canRaise_iff_faultUses j e).1 (canRaise_of_raises hraises hs)

end Sys2Proof.Machine
end

section
/-! PROOF. The statement on reset (70_reset_and_hazards.md section 1): a step with `Reset` waiting, then the comparison
of `Reset` with `CLR`. -/

namespace Sys2Proof.Machine

/-- A step with `Reset` waiting answers the state after reset, where what the host has yet to issue still waits
(R200). -/
theorem step_of_reset {s : State} {rest : List Transaction} (h : s.pending = .reset :: rest) :
    step s = .next { State.reset with pending := rest } := by
  rw [step_of_pending h]
  rfl

/-- Settles O17: `step_of_reset` keeps no register and no word of the state before it, and `exec_clr` keeps the words
alone. -/
theorem resetAndClr : Obligations.ResetAndClr := by
  refine ⟨fun s rest hp => ?reset, exec_clr⟩
  case reset => exact ⟨_, step_of_reset hp, rfl⟩

end Sys2Proof.Machine
end

section
/-! PROOF. The statements on decoding and encoding as inverses (30_encoding.md sections 1 to 6): the fields of a word
that the encoder makes, the decoder on it, then the statements. -/

namespace Sys2Proof.Machine

/-! ## The fields of an encoded word -/

/-- A format C word holds its opcode in the top nibble (R82). -/
@[simp] theorem opField_encodeC (op x y z : BitVec 4) : opField (encodeC op x y z) = op := by
  have hindex := linearIndex_lt x y z
  rw [← BitVec.toNat_inj, opField_toNat, encodeC_toNat]
  omega

/-- The encoder sets no reserved bit of format C (R82). -/
@[simp] theorem reservedFieldC_encodeC (op x y z : BitVec 4) : reservedFieldC (encodeC op x y z) = 0 := by
  have hindex := linearIndex_lt x y z
  rw [reservedFieldC_eq_zero_iff, encodeC_toNat]
  omega

/-- A format C word with no reserved bit set has one opcode and one triple of coordinates. -/
theorem encodeC_inj {op x y z op' x' y' z' : BitVec 4} (h : encodeC op x y z = encodeC op' x' y' z') :
    op = op' ∧ x = x' ∧ y = y' ∧ z = z' := by
  obtain rfl : op = op' := by simpa using congrArg opField h
  have hnat := congrArg BitVec.toNat h
  rw [encodeC_toNat, encodeC_toNat, Nat.add_left_cancel_iff] at hnat
  exact ⟨rfl, linearIndex_inj hnat⟩

/-- The decoder reads the coordinates that the encoder wrote (R83). -/
theorem decodeC_encodeC (op x y z : BitVec 4) (f : BitVec 4 → BitVec 4 → BitVec 4 → Instr) :
    decodeC (encodeC op x y z) f = .ok (f x y z) := by
  have hfields := encodeC_fields (reservedFieldC_encodeC op x y z)
  obtain ⟨-, hx, hy, hz⟩ := encodeC_inj hfields
  rw [decodeC, if_pos (reservedFieldC_encodeC op x y z), hx, hy, hz]

/-- A format C word decodes as its opcode says (R84). -/
theorem decode_encodeC {op : BitVec 4} {f : BitVec 4 → BitVec 4 → BitVec 4 → Instr} (x y z : BitVec 4)
    (hop : ∀ c, opField c = op → decode c = decodeC c f) : decode (encodeC op x y z) = .ok (f x y z) := by
  rw [hop _ (opField_encodeC op x y z), decodeC_encodeC]

/-- Decoding undoes encoding. -/
theorem decode_encode (i : Instr) : decode (encode i) = .ok i := by
  cases i with
  | nop | clr | widthbs | widthbio | extpad | extspan | chkpal | hmget | hmlen => rfl
  | linbs x y z | linbio x y z | getbs x y z | getbio x y z =>
    exact decode_encodeC x y z fun c hc => by simp only [decode, hc]; rfl

/-- The word with these three low nibbles under the opcode is the encoder's (R82, R83). -/
theorem ofNat_nibbles_eq_encodeC (op : BitVec 4) {x y z : Nat} (hx : x < 16) (hy : y < 16) (hz : z < 16) :
    BitVec.ofNat 32 (op.toNat * 2 ^ 28 + y * 256 + z * 16 + x) =
      encodeC op (BitVec.ofNat 4 x) (BitVec.ofNat 4 y) (BitVec.ofNat 4 z) := by
  have hop : op.toNat < 16 := op.isLt
  rw [← BitVec.toNat_inj, encodeC_toNat, linearIndex]
  simp only [BitVec.toNat_ofNat]
  omega

/-! ## The statements -/

/-- Settles O1. -/
theorem decodeOfEncode : Obligations.DecodeOfEncode := decode_encode

/-- Settles O2: whichever format the word's opcode selects, its reserved bits are 0, so it is what the encoder makes. -/
theorem encodeOfDecode : Obligations.EncodeOfDecode := fun _ _ h => encode_of_decode_ok h

/-- Settles O5: the word of these nibbles is the word of the command on them, which decodes to the command. -/
theorem coordinatesAreNibbles : Obligations.CoordinatesAreNibbles := by
  intro x y z hx hy hz
  have hword (op : BitVec 4) := ofNat_nibbles_eq_encodeC op hx hy hz
  exact ⟨(congrArg decode (hword 0x4#4)).trans (decode_encode (.linbs _ _ _)),
    (congrArg decode (hword 0x5#4)).trans (decode_encode (.linbio _ _ _)),
    (congrArg decode (hword 0x8#4)).trans (decode_encode (.getbs _ _ _)),
    (congrArg decode (hword 0x9#4)).trans (decode_encode (.getbio _ _ _))⟩

/-- Settles O6: a format C word is its opcode above twelve bits, and the format N words are closed terms. -/
theorem policyBitOfOpcode : Obligations.PolicyBitOfOpcode := by
  intro x y z
  have hindex := linearIndex_lt x y z
  have hbits (op : BitVec 4) : (encodeC op x y z).toNat / 2 ^ 28 = op.toNat ∧
      (encodeC op x y z).toNat / 2 ^ 29 = op.toNat / 2 := by
    rw [encodeC_toNat]
    omega
  simp only [encode, hbits]
  decide

/-- Settles O7: each of the words is the word of its command. -/
theorem sampleWordsDecode : Obligations.SampleWordsDecode :=
  ⟨decode_encode .nop, decode_encode .widthbio, decode_encode (.linbs 3 7 12), decode_encode .extspan,
    decode_encode (.getbio 12 15 8), decode_encode .hmlen⟩

end Sys2Proof.Machine
end

section
/-! PROOF. The statement on the assembler text of a command (30_encoding.md section 5): how a line is cut into tokens,
how coordinates read back, then the statement. -/

namespace Sys2Proof.Machine

/-! ## Tokens -/

/-- The character stands in a word of a line: it is no blank, no comma and does not start a comment (R89). -/
def isWordChar (c : Char) : Bool := c != ';' && !isBlank c && c != ','

/-- A run of word characters is held until something ends it. -/
theorem tokens_word {w : List Char} (hw : w.all isWordChar = true) (held rest : List Char) :
    tokens held (w ++ rest) = tokens (w.reverse ++ held) rest := by
  induction w generalizing held with
  | nil => rfl
  | cons c w ih =>
    obtain ⟨hc, hw⟩ : isWordChar c = true ∧ w.all isWordChar = true := by simpa using hw
    obtain ⟨⟨hsemi, hblank⟩, hcomma⟩ : (c ≠ ';' ∧ isBlank c = false) ∧ c ≠ ',' := by simpa [isWordChar] using hc
    simp [tokens, hsemi, hblank, hcomma, ih hw]

/-- A word that is not empty becomes a token. -/
theorem flushToken_reverse {w : List Char} (hne : w ≠ []) (rest : List Token) :
    flushToken w.reverse rest = .text w :: rest := by
  simp [flushToken, hne]

/-- A line that is one word is one token. -/
theorem tokens_word_end {w : List Char} (hw : w.all isWordChar = true) (hne : w ≠ []) : tokens [] w = [.text w] := by
  have h := tokens_word hw [] []
  rw [List.append_nil, List.append_nil] at h
  rw [h, tokens, flushToken_reverse hne]

/-- A blank ends a word. -/
theorem tokens_word_blank {w : List Char} (hw : w.all isWordChar = true) (hne : w ≠ []) (rest : List Char) :
    tokens [] (w ++ ' ' :: rest) = .text w :: tokens [] rest := by
  rw [tokens_word hw, List.append_nil, ← flushToken_reverse hne]
  rfl

/-- A comma ends a word and is a token of its own. -/
theorem tokens_word_comma {w : List Char} (hw : w.all isWordChar = true) (hne : w ≠ []) (rest : List Char) :
    tokens [] (w ++ ',' :: ' ' :: rest) = .text w :: .comma :: tokens [] rest := by
  rw [tokens_word hw, List.append_nil, ← flushToken_reverse hne]
  rfl

/-! ## Coordinates -/

theorem coordinateText_word : ∀ n : BitVec 4, (coordinateText n).all isWordChar = true ∧ coordinateText n ≠ [] := by
  decide

/-- A coordinate in decimal reads back as the coordinate (R89). -/
theorem numberBelow_coordinateText : ∀ n : BitVec 4, numberBelow 16 (coordinateText n) = some n.toNat := by
  decide

theorem coordinateText_ne_arrow : ∀ n : BitVec 4, coordinateText n ≠ ['-', '>'] := by
  decide

/-- The tokens of a format C command's text: its mnemonic and its coordinates, with commas between them (R89). -/
theorem statementTokens_formatC {m : List Char} (hm : m.all isWordChar = true) (hne : m ≠ [])
    (harrow : m ≠ ['-', '>']) (x y z : BitVec 4) :
    statementTokens (m ++ coordinatesText x y z) =
      [.text m, .text (coordinateText x), .comma, .text (coordinateText y), .comma, .text (coordinateText z)] := by
  have hline : m ++ coordinatesText x y z =
      m ++ ' ' :: (coordinateText x ++ ',' :: ' ' :: (coordinateText y ++ ',' :: ' ' :: coordinateText z)) := by
    simp [coordinatesText]
  obtain ⟨hx, hxne⟩ := coordinateText_word x
  obtain ⟨hy, hyne⟩ := coordinateText_word y
  obtain ⟨hz, hzne⟩ := coordinateText_word z
  rw [statementTokens, hline, tokens_word_blank hm hne, tokens_word_comma hx hxne, tokens_word_comma hy hyne,
    tokens_word_end hz hzne]
  simp [harrow, coordinateText_ne_arrow]

/-! ## Lines -/

/-- The words that begin a line which is no command (R90, R92). -/
def lineKeywords : List (List Char) :=
  [['c', 's', 'r', 'w'], ['c', 's', 'r', 'r'], ['w', 'm', 'w'], ['w', 'm', 'r'], ['l', 'o', 'a', 'd'],
    ['a', 'r', 'r', 'a', 'y']]

/-- A line that begins with no such word stands for the issue of its command (R90). -/
theorem assembleLine_of_command {line m : List Char} {ts : List Token} {ops : List (List Char)} {i : Instr}
    (htokens : statementTokens line = .text m :: ts) (hops : operandTexts ts = some ops) (hm : m ∉ lineKeywords)
    (hi : commandOf m ops = some i) : assembleLine line = some [issueOf i] := by
  simp only [lineKeywords, List.mem_cons, List.not_mem_nil, or_false, not_or] at hm
  simp [assembleLine, htokens, hops, hm, hi]

/-- The command of a format C mnemonic on three coordinate texts (R89). -/
theorem commandOf_formatC (m : List Char) (x y z : BitVec 4) :
    commandOf m [coordinateText x, coordinateText y, coordinateText z] = commandC m x y z := by
  simp [commandOf, numbersBelow, numberBelow_coordinateText]

/-- The line of a format C command stands for the issue of the command that the mnemonic makes. -/
theorem assembleLine_formatC {m : List Char} {x y z : BitVec 4} {i : Instr} (hm : m.all isWordChar = true)
    (hne : m ≠ []) (hkey : m ∉ ['-', '>'] :: lineKeywords) (hi : commandC m x y z = some i) :
    assembleLine (m ++ coordinatesText x y z) = some [issueOf i] := by
  obtain ⟨harrow, hkey⟩ := not_or.1 (List.mem_cons.not.1 hkey)
  exact assembleLine_of_command (statementTokens_formatC hm hne harrow x y z) rfl hkey
    ((commandOf_formatC m x y z).trans hi)

/-! ## The statement -/

/-- Settles O8: a format N line is closed text, and a format C line is its mnemonic and three coordinates that read
back. -/
theorem assembleCommandText : Obligations.AssembleCommandText := by
  intro i
  show assembleLine (commandText i) = some [issueOf i]
  cases i with
  | nop | clr | widthbs | widthbio | extpad | extspan | chkpal | hmget | hmlen => decide
  | linbs x y z | linbio x y z | getbs x y z | getbio x y z =>
    exact assembleLine_formatC (by decide) (by decide) (by decide) rfl

end Sys2Proof.Machine
end

section
/-! PROOF. The statements on the host's transactions (10_state.md sections 1 and 2; 70_reset_and_hazards.md section 1):
what each register reads and stores, as a chain of register numbers; then the statements. -/

namespace Sys2Proof.Machine

/-! ## Registers by number -/

/-- `STATUS` as a number, its fields at their bit positions (R27). -/
theorem Status.bits_toNat (st : Status) :
    st.bits.toNat = st.err.toNat + 16 * st.valid.toNat + 32 * st.absent.toNat + 64 * st.spanned.toNat := by
  simp only [Status.bits, toNat_append_eq_add, BitVec.toNat_ofBool]
  omega

/-- What a register reads, by its number (R21). -/
theorem csrValue_eq (n : Nat) (s : State) :
    csrValue n s =
      if n = 0 then s.plen
      else if n = 1 then BitVec.ofNat 32 s.dlen.toNat
      else if n = 2 then BitVec.ofNat 32 s.width.toNat
      else if n = 3 then s.idx
      else if n = 4 then s.result
      else if n = 5 then BitVec.ofNat 32 (s.status.err.toNat + 16 * s.status.valid.toNat +
        32 * s.status.absent.toNat + 64 * s.status.spanned.toNat)
      else if n = 6 then BitVec.ofNat 32 s.ctrl.toNat
      else 0 := by
  simp only [← Status.bits_toNat, BitVec.ofNat_toNat]
  rcases Nat.lt_or_ge n 7 with hn | hn
  · interval_cases n <;> rfl
  · rw [csrValue_of_seven_le hn]
    iterate 7 rw [if_neg (by omega)]

/-- What a register write stores, by its number (R21 to R25, R28, R30). -/
theorem csrStore_eq (n : Nat) (v : CsrWord) (s : State) :
    csrStore n v s = { s with
      plen := if n = 0 then v else s.plen
      dlen := if n = 1 then BitVec.ofNat 12 (min v.toNat 2048) else s.dlen
      width := if n = 2 then BitVec.ofNat 6 (min v.toNat 63) else s.width
      idx := if n = 3 then v else s.idx
      ctrl := if n = 6 then v.extractLsb' 0 1 else s.ctrl } := by
  rcases Nat.lt_or_ge n 7 with hn | hn
  · interval_cases n <;> rfl
  · rw [csrStore_of_seven_le hn]
    iterate 5 rw [if_neg (by omega)]

/-- `DLEN` holds every length up to 2048 (R23). -/
theorem dlenSaturated_toNat (n : Nat) : (BitVec.ofNat 12 (min n 2048)).toNat = min n 2048 :=
  Nat.mod_eq_of_lt (by omega)

/-- `WIDTH` holds every width up to 63 (R24). -/
theorem widthSaturated_toNat (n : Nat) : (BitVec.ofNat 6 (min n 63)).toNat = min n 63 :=
  Nat.mod_eq_of_lt (by omega)

/-! ## Steps on the word memory -/

/-- A step with a word write waiting stores the word (R31). -/
theorem step_of_wmemWrite {s : State} {a : Nat} {v : Word} {rest : List Transaction}
    (h : s.pending = .wmemWrite a v :: rest) :
    step s = .next { s with
      pending := rest, reply := .ack, wmem := if a < 2048 then s.wmem.write a v else s.wmem } := by
  rw [step_of_pending h, runTransaction, wmemStore_eq]
  rfl

/-- A step with a read of a written word waiting replies with the word (R31). -/
theorem step_of_wmemRead_written {s : State} {a : Nat} {v : Word} {rest : List Transaction}
    (h : s.pending = .wmemRead a :: rest) (ha : a < 2048) (hv : s.wmem.read a = some v) :
    step s = .next { s with pending := rest, reply := .word v } := by
  rw [step_of_pending h, runTransaction, wmemReadTransaction, if_pos ha]
  simp only [hv]
  rfl

/-- A step with a read of a word that nothing has written waiting is refused (R32; log entry 2). -/
theorem step_of_wmemRead_unwritten {s : State} {a : Nat} {rest : List Transaction}
    (h : s.pending = .wmemRead a :: rest) (ha : a < 2048) (hv : s.wmem.read a = none) :
    step s = .refused (.unwrittenWord a) := by
  rw [step_of_pending h, runTransaction, wmemReadTransaction, if_pos ha]
  simp only [hv]

/-- A step with a read beyond the memory waiting replies with 0 (R31). -/
theorem step_of_wmemRead_beyond {s : State} {a : Nat} {rest : List Transaction}
    (h : s.pending = .wmemRead a :: rest) (ha : 2048 ≤ a) :
    step s = .next { s with pending := rest, reply := .word 0 } := by
  rw [step_of_pending h, runTransaction, wmemReadTransaction, if_neg (Nat.not_lt.2 ha)]
  rfl

/-! ## The statements -/

/-- Settles O10: the reply is the register's value, which `csrValue_eq` gives by number. -/
theorem csrReadRepliesRegister : Obligations.CsrReadRepliesRegister := by
  intro s rest n hp
  rw [step_of_csrRead hp, csrValue_eq]

/-- Settles O11: the saturated values fit their registers, and `CTRL` takes the parity of the value. -/
theorem csrWriteStoresRegister : Obligations.CsrWriteStoresRegister := by
  intro s rest n v hp hn
  refine ⟨_, step_of_csrWrite_store hn hp, ?_⟩
  rw [csrStore_eq]
  refine ⟨rfl, ?dlen, ?width, ?ctrl⟩
  case dlen => exact (apply_ite BitVec.toNat _ _ _).trans (by rw [dlenSaturated_toNat])
  case width => exact (apply_ite BitVec.toNat _ _ _).trans (by rw [widthSaturated_toNat])
  case ctrl => exact (apply_ite BitVec.toNat _ _ _).trans (by rw [BitVec.extractLsb'_toNat]; rfl)

/-- Settles O13: inside the memory the write is that of `Memory.write`, and beyond it there is none. -/
theorem wmemWriteChangesOneWord : Obligations.WmemWriteChangesOneWord := by
  intro s rest a v hp
  refine ⟨_, step_of_wmemWrite hp, rfl, fun ha => ?inside, fun ha => ?beyond⟩
  case inside =>
    simp only [if_pos ha]
    exact ⟨Memory.read_write_same s.wmem a v, fun b hb => Memory.read_write_other s.wmem v hb⟩
  case beyond => exact if_neg (Nat.not_lt.2 ha)

/-- Settles O14. -/
theorem wmemReadRepliesWord : Obligations.WmemReadRepliesWord :=
  fun _ _ _ hp => ⟨fun _ ha hv => step_of_wmemRead_written hp ha hv, step_of_wmemRead_beyond hp⟩

/-- Settles O16: the memory is empty after reset, and `exec_clr` keeps the words. -/
theorem unwrittenWordIsRefused : Obligations.UnwrittenWordIsRefused :=
  ⟨Memory.read_nil, fun s => ⟨_, exec_clr s, rfl⟩, fun _ _ _ hp ha hv => step_of_wmemRead_unwritten hp ha hv⟩

/-- Settles O19: with no transaction there is nothing to take; a reset leaves the queue behind it and no reply. -/
theorem idleAndResetKeepQueue : Obligations.IdleAndResetKeepQueue := by
  refine ⟨fun s hp => ?idle, fun s rest hp => ⟨_, step_of_reset hp, rfl, rfl⟩⟩
  case idle => simp only [step, takeTransaction, hp]

end Sys2Proof.Machine
end

section
/-! PROOF. The statements on sections of fields (10_state.md section 2, 95_test_vectors.md sections 1 and 4): where a
truncated field must lie, field values packed into a number, then the statements. -/

namespace Sys2Proof.Machine

/-! ## Where a truncated field lies -/

/-- A padded field of a section of 4096 is in the first 2048 words: two fields of any usable width fit a word. -/
theorem paddedWord_lt_2048 {w k : Nat} (h1 : 1 ≤ w) (h32 : w ≤ 32) (hk : k < 4096) : k / (64 / w) < 2048 := by
  have htwo : 2 ≤ 64 / w := (Nat.le_div_iff_mul_le h1).2 (by omega)
  calc k / (64 / w) ≤ k / 2 := Nat.div_le_div_left htwo (by decide)
    _ < 2048 := by omega

/-- A spanning field that is truncated has its current word, or its last bit, beyond `DLEN` (R124). -/
theorem spanningField_trunc_place {s : State} {w k : Nat} {e : FaultCode}
    (h : spanningField s w k = .error (.fault e)) : s.dlen.toNat ≤ w * k / 64 ∨ 64 * s.dlen.toNat < w * k + w := by
  rcases Nat.lt_or_ge (64 - w * k % 64) w with hcross | hin
  case inr =>
    rw [spanningField_inside hin] at h
    cases hd : memRead s (w * k / 64) with
    | ok d => simp [hd] at h
    | error r =>
      obtain rfl : r = .fault e := by simpa [hd] using h
      exact .inl (memRead_fault hd).2
  case inl =>
    rcases spanningField_error h with hcur | hnext
    · exact .inl (memRead_fault hcur).2
    · have hlen := (memRead_fault hnext).2
      exact .inr (by omega)

/-- With a full memory no padded field of a section is truncated. -/
theorem not_raises_extpad_trunc {s : State} (hlen : s.dlen.toNat = 2048) (hk : s.idx.toNat < 4096) :
    ¬ Raises .extpad s .trunc := by
  intro h
  by_cases hw : s.width.toNat < 1 ∨ 32 < s.width.toNat
  case pos => cases (raises_iff_of_fault (exec_extpad_badWidth hw) .trunc).1 h
  case neg =>
    obtain ⟨h1, h32⟩ : 1 ≤ s.width.toNat ∧ s.width.toNat ≤ 32 := by omega
    have hfield := h.error_of_finish (exec_extpad_eq h1 h32) fun _ => rfl
    have hword := (memRead_fault (paddedField_error hfield)).2
    exact absurd (paddedWord_lt_2048 h1 h32 hk) (by omega)

/-- With a full memory no spanning field of a section is truncated: 4096 fields of 32 bits are 2048 words. -/
theorem not_raises_extspan_trunc {s : State} (hlen : s.dlen.toNat = 2048) (hk : s.idx.toNat < 4096) :
    ¬ Raises .extspan s .trunc := by
  intro h
  rcases Nat.lt_or_ge 32 s.width.toNat with hw | h32
  case inl => cases (raises_iff_of_fault (exec_extspan_badWidth hw) .trunc).1 h
  case inr =>
    have hfield := h.error_of_finish (exec_extspan_eq h32) fun _ => rfl
    have hbits : s.width.toNat * s.idx.toNat ≤ 32 * 4095 := Nat.mul_le_mul h32 (by omega)
    rcases spanningField_trunc_place hfield with hcur | hlast <;> omega

/-! ## Values packed into a number -/

/-- Digit `k` of a number is the `k`-th of the digits that it is made of. -/
theorem ofDigits_digit {b k v : Nat} {L : List Nat} (hb : 0 < b) (hL : ∀ u ∈ L, u < b) (hk : L[k]? = some v) :
    Nat.ofDigits b L / b ^ k % b = v := by
  obtain ⟨hlt, rfl⟩ := List.getElem?_eq_some_iff.1 hk
  rw [Nat.ofDigits_div_pow_eq_ofDigits_drop k hb L hL, List.drop_eq_getElem_cons hlt, Nat.ofDigits_cons,
    Nat.add_mul_mod_self_left, Nat.mod_eq_of_lt (hL _ (List.getElem_mem hlt))]

/-- `n` values of `w` bits make a number of `w * n` bits. -/
theorem ofDigits_two_pow_lt {w : Nat} {L : List Nat} (hw : 1 ≤ w) (hL : ∀ u ∈ L, u < 2 ^ w) :
    Nat.ofDigits (2 ^ w) L < 2 ^ (w * L.length) := by
  rw [pow_mul]
  exact Nat.ofDigits_lt_base_pow_length (Nat.one_lt_two_pow (by omega)) hL

/-- A word of the padded layout has at most 64 bits (R120). -/
theorem paddedWord_lt {w : Nat} {vs : List Nat} (hw : 1 ≤ w) (hvs : ∀ u ∈ vs, u < 2 ^ w) (j : Nat) :
    paddedWord w vs j < 2 ^ 64 := by
  have hfields : ∀ u ∈ (vs.drop (j * (64 / w))).take (64 / w), u < 2 ^ w :=
    fun u hu => hvs u (List.mem_of_mem_drop (List.mem_of_mem_take hu))
  refine (ofDigits_two_pow_lt hw hfields).trans_le (Nat.pow_le_pow_right Nat.two_pos ?_)
  calc w * ((vs.drop (j * (64 / w))).take (64 / w)).length
      ≤ w * (64 / w) := Nat.mul_le_mul_left w (List.length_take_le _ _)
    _ ≤ 64 := Nat.mul_div_le 64 w

/-- A field is at its place in its word of the padded layout (R120). -/
theorem paddedWord_field {w k v : Nat} {vs : List Nat} (hw : 1 ≤ w) (h64 : w ≤ 64) (hvs : ∀ u ∈ vs, u < 2 ^ w)
    (hk : vs[k]? = some v) : paddedWord w vs (k / (64 / w)) / 2 ^ ((k % (64 / w)) * w) % 2 ^ w = v := by
  have hfields : ∀ u ∈ (vs.drop (k / (64 / w) * (64 / w))).take (64 / w), u < 2 ^ w :=
    fun u hu => hvs u (List.mem_of_mem_drop (List.mem_of_mem_take hu))
  rw [Nat.mul_comm (k % (64 / w)), pow_mul]
  refine ofDigits_digit (Nat.two_pow_pos w) hfields ?_
  rw [List.getElem?_take_of_lt (Nat.mod_lt k (Nat.div_pos h64 hw)), List.getElem?_drop, Nat.div_add_mod', hk]

/-- When the words are those of a number laid out from word 0 up, `B` is that number (R125). -/
theorem State.bitString_of_words {s : State} {n N : Nat}
    (h : ∀ a < n, s.wmem.read a = some (BitVec.ofNat 64 (N / 2 ^ (64 * a)))) : s.bitString n = N % 2 ^ (64 * n) := by
  induction n with
  | zero => simp [State.bitString, Nat.mod_one]
  | succ n ih =>
    have hword : s.wordNat n = N / 2 ^ (64 * n) % 2 ^ 64 := by
      rw [State.wordNat, h n (Nat.lt_succ_self n), Option.getD_some, BitVec.toNat_ofNat]
    rw [State.bitString, ih fun a ha => h a (Nat.lt_succ_of_lt ha), hword, Nat.mul_succ, pow_add, Nat.mod_mul,
      Nat.mul_comm (2 ^ (64 * n))]

/-! ## The statements -/

/-- Settles O33. -/
theorem fullMemoryHoldsSection : Obligations.FullMemoryHoldsSection :=
  fun _ t hlen hk => ⟨fun h herr => not_raises_extpad_trunc hlen hk ⟨t, h, herr⟩,
    fun h herr => not_raises_extspan_trunc hlen hk ⟨t, h, herr⟩⟩

/-- Settles O34: the extraction cuts the field at its place in the word, where the packing put its value. -/
theorem paddedRoundTrip : Obligations.PaddedRoundTrip := by
  rintro s w k v vs rfl rfl h1 h32 hvs hk hlen hread
  rw [(extpadExtractsField.2 s _ _ rfl rfl).2.2 _ h1 h32 hlen hread, BitVec.toNat_ofNat,
    Nat.mod_eq_of_lt (paddedWord_lt h1 hvs _), paddedWord_field h1 (by omega) hvs hk]

/-- Settles O35: the words make the number that the values are the digits of, and a field is its digit. -/
theorem spanningRoundTrip : Obligations.SpanningRoundTrip := by
  rintro s w k v vs rfl rfl h1 h32 hvs hk hfit hwords
  have hloaded : s.loaded := fun a ha => by rw [hwords a ha, Option.isSome_some]
  have hlast : s.width.toNat * s.idx.toNat + s.width.toNat ≤ 64 * s.dlen.toNat := by
    obtain ⟨hlt, -⟩ := List.getElem?_eq_some_iff.1 hk
    calc s.width.toNat * s.idx.toNat + s.width.toNat = s.width.toNat * (s.idx.toNat + 1) := (Nat.mul_succ _ _).symm
      _ ≤ s.width.toNat * vs.length := Nat.mul_le_mul_left _ hlt
      _ ≤ 64 * s.dlen.toNat := hfit
  have hB : s.bitString s.dlen.toNat = Nat.ofDigits (2 ^ s.width.toNat) vs := by
    rw [State.bitString_of_words hwords, Nat.mod_eq_of_lt]
    exact (ofDigits_two_pow_lt h1 hvs).trans_le (Nat.pow_le_pow_right Nat.two_pos hfit)
  have hfield := ofDigits_digit (Nat.two_pow_pos _) hvs hk
  rw [← pow_mul] at hfield
  rw [exec_extspan_value_of_loaded hloaded h32 (by omega) hlast, hB, hfield]
  rfl

end Sys2Proof.Machine
end

section
/-! SUPPORT for the statements on every command (10_state.md section 5, 20_memory.md section 3): the five shapes a
command can have, what a command of each shape can answer, and so what any command writes and leaves. -/

namespace Sys2Proof.Machine

/-! ## The commands that read once and commit once -/

/-- What a command of one read writes when it completes. -/
inductive Commit where
  /-- A width in `WIDTH`, and a clear `STATUS` (R100, R101). -/
  | width (n : Nat)
  /-- An index in `IDX`, and a clear `STATUS` (R110, R111). -/
  | index (n : Nat)
  /-- A value in `RESULT`, and its mark in `STATUS` (R121, R124, R153, R154). -/
  | value (v : BitVec 32) (spanned : Bool)
  /-- The mark of an unavailable heightmap in `STATUS` (R151). -/
  | unavailable

/-- The state after the writes of a commit. -/
def Commit.apply : Commit → State → State
  | .width n, s => (s.setWidth n).setStatus Status.cleared
  | .index n, s => (s.setIdx n).setStatus Status.cleared
  | .value v b, s => (s.setResult v).setStatus (Status.value b)
  | .unavailable, s => s.setStatus Status.unavailable

/-- What a command of one read reads of a state: what it will commit, or why it stops. None for the other commands. -/
def readOf : Instr → Option (State → Except Stop Commit)
  | .widthbs => some fun s =>
    if s.plen.toNat = 0 then .error (.fault .plen) else .ok (.width (blockStateWidth s.plen.toNat))
  | .widthbio => some fun s =>
    if s.plen.toNat = 0 then .error (.fault .plen) else .ok (.width (biomeWidth s.plen.toNat))
  | .linbs x y z => some fun _ => .ok (.index (linearIndex x y z))
  | .linbio x y z => some fun _ => .ok (.index (subCellIndex x y z))
  | .extpad => some fun s =>
    if s.width.toNat < 1 ∨ 32 < s.width.toNat then .error (.fault .width)
    else (paddedField s s.width.toNat s.idx.toNat).map fun v => .value (BitVec.ofNat 32 v) false
  | .extspan => some fun s =>
    if 32 < s.width.toNat then .error (.fault .width)
    else (spanningField s s.width.toNat s.idx.toNat).map fun v => .value (BitVec.ofNat 32 v.1) v.2
  | .hmget => some fun s =>
    if s.genfull then (heightAt s s.idx.toNat).map fun h => .value (BitVec.ofInt 32 h) false else .ok .unavailable
  | .hmlen => some fun s =>
    if s.genfull then (hmLength s).map fun n => .value (BitVec.ofNat 32 n) false else .ok .unavailable
  | .nop | .clr | .getbs _ _ _ | .getbio _ _ _ | .chkpal => none

theorem Micro.finish_map {α β : Type} (s : State) (r : Except Stop α) (g : α → β) (f : β → State) :
    Micro.finish s (r.map g) f = Micro.finish s r fun v => f (g v) := by
  rcases r with (_ | _) | _ <;> rfl

/-- A command of one read is that read and its commit. -/
theorem exec_of_readOf {i : Instr} {r : State → Except Stop Commit} (h : readOf i = some r) (s : State) :
    exec i s = (Micro.finish s (r s) fun c => c.apply s).outcome := by
  cases i with
  | nop | clr | getbs | getbio | chkpal => cases h
  | linbs | linbio => cases h; rfl
  | widthbs | widthbio =>
    cases h
    by_cases hp : s.plen.toNat = 0
    · simp only [exec, execWidthbs, execWidthbio, microWidthbs, microWidthbio, if_pos hp, Micro.finish_fault]
    · simp only [exec, execWidthbs, execWidthbio, microWidthbs, microWidthbio, if_neg hp, Micro.finish_ok,
        Commit.apply]
  | extpad =>
    cases h
    dsimp only
    by_cases hw : s.width.toNat < 1 ∨ 32 < s.width.toNat
    · rw [exec_extpad_badWidth hw, if_pos hw, Micro.finish_fault, Micro.outcome_faulted]
    · rw [exec_extpad_eq (by omega) (by omega), if_neg hw, Micro.finish_map]
      rfl
  | extspan =>
    cases h
    dsimp only
    by_cases hw : 32 < s.width.toNat
    · rw [exec_extspan_badWidth hw, if_pos hw, Micro.finish_fault, Micro.outcome_faulted]
    · rw [exec_extspan_eq (by omega), if_neg hw, Micro.finish_map]
      rfl
  | hmget | hmlen =>
    cases h
    by_cases hg : s.genfull = true
    · simp only [exec, execHmget, execHmlen, heightmapGate_full hg, if_pos hg, Micro.finish_map, Commit.apply]
    · simp only [exec, execHmget, execHmlen, heightmapGate_unavailable (Bool.not_eq_true _ ▸ hg), if_neg hg,
        Micro.finish_ok, Commit.apply]

/-- The column 'Written by the unit' of R20 lets the command make the commit. -/
def Commit.Allowed (i : Instr) : Commit → Prop
  | .width _ => mayWriteCsr 2 i = true
  | .index _ => mayWriteCsr 3 i = true
  | .value _ _ => mayWriteCsr 4 i = true
  | .unavailable => True

theorem exceptMap_eq_ok {ε α β : Type} {r : Except ε α} {g : α → β} {b : β} (h : r.map g = .ok b) :
    ∃ a, r = .ok a ∧ b = g a := by
  cases r with
  | ok a => exact ⟨a, rfl, (Except.ok.inj h).symm⟩
  | error e => cases h

theorem exceptMap_eq_error {ε α β : Type} {r : Except ε α} {g : α → β} {e : ε} (h : r.map g = .error e) :
    r = .error e := by
  cases r with
  | ok a => cases h
  | error e' => exact congrArg _ (Except.error.inj h)

/-- A command of one read commits only what R20 lets it write. -/
theorem readOf_allowed {i : Instr} {r : State → Except Stop Commit} (h : readOf i = some r) {s : State} {c : Commit}
    (hc : r s = .ok c) : c.Allowed i := by
  cases i with
  | nop | clr | getbs | getbio | chkpal => cases h
  | linbs | linbio => cases h; cases hc; rfl
  | widthbs | widthbio =>
    cases h
    dsimp only at hc
    split at hc <;> cases hc
    rfl
  | extpad | extspan =>
    cases h
    dsimp only at hc
    split at hc
    · cases hc
    · obtain ⟨v, -, rfl⟩ := exceptMap_eq_ok hc
      rfl
  | hmget | hmlen =>
    cases h
    dsimp only at hc
    split at hc
    · obtain ⟨v, -, rfl⟩ := exceptMap_eq_ok hc
      rfl
    · cases hc
      trivial

/-- All that a command of one read can answer: its commit, or the fault that stopped the read. -/
theorem exec_reads_cases {i : Instr} {r : State → Except Stop Commit} (h : readOf i = some r) {s t : State}
    (ht : exec i s = .next t) :
    (∃ c, r s = .ok c ∧ t = c.apply s) ∨ ∃ e, r s = .error (.fault e) ∧ t = s.raiseFault e :=
  Micro.finish_cases ((exec_of_readOf h s).symm.trans ht)

/-! ## The whole lookups -/

/-- What tells one whole lookup from the other: the extraction, the width rule and the index (R142, R143). -/
structure LookupParts where
  /-- The command that extracts the field. -/
  extract : Instr
  /-- The width of a field, by the palette length. -/
  width : Nat → Nat
  /-- The index of the field. -/
  index : Nat

/-- The parts of a whole lookup; none for the other commands. -/
def lookupOf : Instr → Option LookupParts
  | .getbs x y z => some ⟨.extpad, blockStateWidth, linearIndex x y z⟩
  | .getbio x y z => some ⟨.extspan, biomeWidth, subCellIndex x y z⟩
  | _ => none

/-- The state in which a lookup extracts: its field placed by the first two steps. -/
def LookupParts.place (l : LookupParts) (s : State) : State := s.placeField (l.width s.plen.toNat) l.index

/-- A lookup is its prologue, and then the extraction and the check of its placed field (R140 to R143). -/
theorem exec_of_lookupOf {i : Instr} {l : LookupParts} (h : lookupOf i = some l) (s : State) :
    exec i s =
      if s.plen.toNat = 0 then .next (s.raiseFault .plen)
      else if s.dlen.toNat = 0 then .next ((s.setResult 0).setStatus Status.absentDefault)
      else runUntilFault [l.extract, .chkpal] (l.place s) := by
  suffices hparts : (s.plen.toNat = 0 → exec i s = .next (s.raiseFault .plen)) ∧
      (s.plen.toNat ≠ 0 → s.dlen.toNat = 0 → exec i s = .next ((s.setResult 0).setStatus Status.absentDefault)) ∧
      (s.plen.toNat ≠ 0 → s.dlen.toNat ≠ 0 → exec i s = runUntilFault [l.extract, .chkpal] (l.place s)) by
    obtain ⟨hempty, habsent, hplaced⟩ := hparts
    split_ifs with hp hd
    exacts [hempty hp, habsent hp hd, hplaced hp hd]
  cases i with
  | getbs x y z =>
    cases h
    exact ⟨(exec_getbs_empty · x y z), (exec_getbs_absent · · x y z), (exec_getbs_placed · · x y z)⟩
  | getbio x y z =>
    cases h
    exact ⟨(exec_getbio_empty · x y z), (exec_getbio_absent · · x y z), (exec_getbio_placed · · x y z)⟩
  | _ => cases h

/-- A lookup may write `WIDTH`, `IDX`, `RESULT` and `STATUS` (R20). -/
theorem lookupOf_mayWriteCsr {i : Instr} {l : LookupParts} (h : lookupOf i = some l) :
    mayWriteCsr 2 i = true ∧ mayWriteCsr 3 i = true ∧ mayWriteCsr 4 i = true ∧ mayWriteCsr 5 i = true := by
  cases i with
  | getbs | getbio => exact ⟨rfl, rfl, rfl, rfl⟩
  | _ => cases h

/-- The extraction of a lookup is a command of one read. -/
theorem lookupOf_extract_reads {i : Instr} {l : LookupParts} (h : lookupOf i = some l) :
    ∃ r, readOf l.extract = some r := by
  cases i with
  | getbs | getbio => cases h; exact ⟨_, rfl⟩
  | _ => cases h

/-- All that the extraction of a lookup can answer: a value, or a fault. -/
theorem exec_extract_cases {i : Instr} {l : LookupParts} (h : lookupOf i = some l) {p u : State}
    (hu : exec l.extract p = .next u) :
    (∃ v b, u = (p.setResult v).setStatus (Status.value b)) ∨ ∃ e, u = p.raiseFault e := by
  cases i with
  | getbs =>
    cases h
    exact (exec_extpad_cases hu).imp_left fun ⟨_, _, _, _, hvalue⟩ => ⟨_, _, hvalue⟩
  | getbio =>
    cases h
    exact (exec_extspan_cases hu).imp_left fun ⟨_, _, _, _, hvalue⟩ => ⟨_, _, hvalue⟩
  | _ => cases h

/-- `CHKPAL` passes or faults by `RESULT` and `PLEN` alone (R127). -/
theorem exec_chkpal_eq (s : State) :
    exec .chkpal s =
      .next (if s.result.toNat < s.plen.toNat then s.setStatus s.status.checked else s.raiseFault .range) := by
  obtain ⟨houtside, hinside⟩ := chkpalChecksRange.2 s
  split
  case isTrue hlt => exact hinside hlt
  case isFalse hge => exact houtside (not_lt.1 hge)

/-- All that `CHKPAL` can answer: it passes, or it faults (R127). -/
theorem exec_chkpal_cases {s t : State} (h : exec .chkpal s = .next t) :
    (s.result.toNat < s.plen.toNat ∧ t = s.setStatus s.status.checked) ∨
    (s.plen.toNat ≤ s.result.toNat ∧ t = s.raiseFault .range) := by
  obtain rfl := Host.Outcome.next.inj ((exec_chkpal_eq s).symm.trans h)
  split
  case isTrue hlt => exact .inl ⟨hlt, rfl⟩
  case isFalse hge => exact .inr ⟨not_lt.1 hge, rfl⟩

/-- `CHKPAL` issued alone is `CHKPAL`. -/
theorem runUntilFault_chkpal (s : State) : runUntilFault [.chkpal] s = exec .chkpal s :=
  runUntilFault_singleton rfl (microChkpal_reports s)

/-- All that a command and then `CHKPAL` can answer: what the command answers when it faults, or what the check makes
of its answer. -/
theorem runUntilFault_chkpal_cases {j : Instr} {p t : State} (h : runUntilFault [j, .chkpal] p = .next t) :
    ∃ u, exec j p = .next u ∧ ((u.status.err ≠ 0 ∧ t = u) ∨ (u.status.err = 0 ∧ exec .chkpal u = .next t)) := by
  cases hj : exec j p with
  | fault f => cases f
  | refused r => simp [runUntilFault_cons_refused hj] at h
  | next u =>
    refine ⟨u, rfl, ?_⟩
    by_cases herr : u.status.err = 0
    · rw [runUntilFault_cons_completes hj herr, runUntilFault_chkpal] at h
      exact .inr ⟨herr, h⟩
    · rw [runUntilFault_cons_faults hj herr] at h
      exact .inl ⟨herr, (Host.Outcome.next.inj h).symm⟩

/-- All that a whole lookup can answer: `E_PLEN`, the default of an absent array, a fault of its extraction or of its
check, or an index of the palette (R140 to R143). -/
theorem exec_lookup_cases {i : Instr} {l : LookupParts} (h : lookupOf i = some l) {s t : State}
    (ht : exec i s = .next t) :
    t = s.raiseFault .plen ∨
    (s.plen.toNat ≠ 0 ∧ t = (s.setResult 0).setStatus Status.absentDefault) ∨
    (∃ v e, t = ((l.place s).setResult v).raiseFault e) ∨
    ∃ v b, v.toNat < s.plen.toNat ∧ t = ((l.place s).setResult v).setStatus (Status.value b) := by
  rw [exec_of_lookupOf h] at ht
  split at ht
  case isTrue => exact .inl (Host.Outcome.next.inj ht).symm
  case isFalse hp =>
    refine .inr ?_
    split at ht
    case isTrue => exact .inl ⟨hp, (Host.Outcome.next.inj ht).symm⟩
    case isFalse =>
      refine .inr ?_
      obtain ⟨u, hu, hend⟩ := runUntilFault_chkpal_cases ht
      rcases exec_extract_cases h hu with ⟨v, b, rfl⟩ | ⟨e, rfl⟩
      · rcases hend with ⟨herr, -⟩ | ⟨-, hcheck⟩
        · exact absurd rfl herr
        · rcases exec_chkpal_cases hcheck with ⟨hlt, rfl⟩ | ⟨-, rfl⟩
          · exact .inr ⟨v, b, hlt, rfl⟩
          · exact .inl ⟨v, .range, rfl⟩
      · rcases hend with ⟨-, rfl⟩ | ⟨herr, -⟩
        · exact .inl ⟨(l.place s).result, e, rfl⟩
        · exact absurd herr e.code_ne_zero

/-! ## The shapes -/

/-- The five shapes of a command. -/
inductive Shape : Instr → Prop
  | nop : Shape .nop
  | clr : Shape .clr
  | chkpal : Shape .chkpal
  /-- One read and one commit. -/
  | reads {i : Instr} {r : State → Except Stop Commit} (h : readOf i = some r) : Shape i
  /-- A whole lookup. -/
  | looksUp {i : Instr} {l : LookupParts} (h : lookupOf i = some l) : Shape i

/-- Every command has one of the shapes. -/
theorem shape_of (i : Instr) : Shape i := by
  cases i with
  | nop => exact .nop
  | clr => exact .clr
  | chkpal => exact .chkpal
  | getbs | getbio => exact .looksUp rfl
  | widthbs | widthbio | linbs | linbio | extpad | extspan | hmget | hmlen => exact .reads rfl

/-! ## What a command writes and leaves -/

/-- From `s` to `t` nothing changed but registers that R20 lets the command write. -/
structure WritesOnlyOwn (i : Instr) (s t : State) : Prop where
  plen : mayWriteCsr 0 i = false → t.plen = s.plen
  dlen : mayWriteCsr 1 i = false → t.dlen = s.dlen
  width : mayWriteCsr 2 i = false → t.width = s.width
  idx : mayWriteCsr 3 i = false → t.idx = s.idx
  result : mayWriteCsr 4 i = false → t.result = s.result
  status : mayWriteCsr 5 i = false → t.status = s.status
  ctrl : mayWriteCsr 6 i = false → t.ctrl = s.ctrl
  wmem : t.wmem = s.wmem
  pending : t.pending = s.pending
  reply : t.reply = s.reply

/-- A command that may write `STATUS` and changes nothing else writes only what it may. -/
theorem WritesOnlyOwn.of_setStatus {i : Instr} (h : mayWriteCsr 5 i = true) (s : State) (st : Status) :
    WritesOnlyOwn i s (s.setStatus st) := by
  constructor
  case status => simp [h]
  all_goals simp

theorem WritesOnlyOwn.of_commit {i : Instr} {c : Commit} (hc : c.Allowed i) (h : mayWriteCsr 5 i = true) (s : State) :
    WritesOnlyOwn i s (c.apply s) := by
  cases c with
  | width n | index n | value v b =>
    rw [Commit.Allowed] at hc
    constructor <;> simp [Commit.apply, h, hc]
  | unavailable => exact .of_setStatus h s _

/-- A state whose `WIDTH`, `IDX`, `RESULT` and `STATUS` alone differ is one that a lookup may answer. -/
theorem WritesOnlyOwn.of_lookup {i : Instr} {l : LookupParts} (h : lookupOf i = some l) {s t : State}
    (ht : t = { s with width := t.width, idx := t.idx, result := t.result, status := t.status }) :
    WritesOnlyOwn i s t := by
  obtain ⟨h2, h3, h4, h5⟩ := lookupOf_mayWriteCsr h
  rw [ht]
  constructor <;> simp [h2, h3, h4, h5]

/-- A lookup writes `WIDTH`, `IDX`, `RESULT` and `STATUS` and leaves the rest (R20, R142, R143). -/
theorem exec_lookup_frame {i : Instr} {l : LookupParts} (h : lookupOf i = some l) {s t : State}
    (ht : exec i s = .next t) :
    t = { s with width := t.width, idx := t.idx, result := t.result, status := t.status } := by
  rcases exec_lookup_cases h ht with rfl | ⟨-, rfl⟩ | ⟨v, e, rfl⟩ | ⟨v, b, -, rfl⟩ <;> rfl

/-- Every command but `NOP` may write `STATUS` (R20). -/
theorem readOf_mayWriteStatus {i : Instr} {r : State → Except Stop Commit} (h : readOf i = some r) :
    mayWriteCsr 5 i = true := by
  cases i with
  | nop => cases h
  | _ => rfl

/-- Every command writes only registers that R20 lets it write (10_state.md section 5). -/
theorem exec_writesOnlyOwn {i : Instr} {s t : State} (ht : exec i s = .next t) : WritesOnlyOwn i s t := by
  cases shape_of i with
  | nop => cases ht; constructor <;> intros <;> rfl
  | clr => cases ht; constructor <;> simp [mayWriteCsr, Instr.mnemonic]
  | chkpal => rcases exec_chkpal_cases ht with ⟨-, rfl⟩ | ⟨-, rfl⟩ <;> exact .of_setStatus rfl s _
  | reads h =>
    rcases exec_reads_cases h ht with ⟨c, hc, rfl⟩ | ⟨e, -, rfl⟩
    · exact .of_commit (readOf_allowed h hc) (readOf_mayWriteStatus h) s
    · exact .of_setStatus (readOf_mayWriteStatus h) s _
  | looksUp h => exact .of_lookup h (exec_lookup_frame h ht)

end Sys2Proof.Machine
end

section
/-! PROOF. The statements on what a command or a step may change (10_state.md section 5, 60_exceptions.md section 1,
70_reset_and_hazards.md section 3): the invariant first, with what commands and host writes do to it. -/

namespace Sys2Proof.Machine

/-! ## The invariant -/

/-- A fault leaves a legal `STATUS` (R175). -/
theorem Status.legal_ofFault (e : FaultCode) : (Status.ofFault e).legal = true := by
  cases e <;> rfl

/-- A produced value leaves a legal `STATUS` (R34). -/
theorem Status.legal_value (b : Bool) : (Status.value b).legal = true := by
  cases b <;> rfl

/-- A passed check leaves a legal `STATUS`: flags stand in a legal one only where there is no error (R127). -/
theorem Status.legal_checked {st : Status} (h : st.legal = true) : st.checked.legal = true := by
  unfold Status.legal at h
  split at h
  case isTrue => exact h
  case isFalse =>
    obtain ⟨-, hspanned⟩ := Bool.and_eq_true_iff.1 h
    simp [Status.checked, Status.legal, hspanned]

theorem Commit.apply_status_legal (c : Commit) (s : State) : (c.apply s).status.legal = true := by
  cases c with
  | width | index | unavailable => rfl
  | value v b => exact Status.legal_value b

/-- Every command leaves a legal `STATUS` where one was (R34, R175). -/
theorem exec_status_legal {i : Instr} {s t : State} (hs : s.status.legal = true) (ht : exec i s = .next t) :
    t.status.legal = true := by
  cases shape_of i with
  | nop => cases ht; exact hs
  | clr => cases ht; rfl
  | chkpal =>
    rcases exec_chkpal_cases ht with ⟨-, rfl⟩ | ⟨-, rfl⟩
    · exact Status.legal_checked hs
    · exact Status.legal_ofFault _
  | reads h =>
    rcases exec_reads_cases h ht with ⟨c, -, rfl⟩ | ⟨e, -, rfl⟩
    · exact c.apply_status_legal s
    · exact Status.legal_ofFault e
  | looksUp h =>
    rcases exec_lookup_cases h ht with rfl | ⟨-, rfl⟩ | ⟨-, e, rfl⟩ | ⟨-, b, -, rfl⟩
    · exact Status.legal_ofFault _
    · rfl
    · exact Status.legal_ofFault e
    · exact Status.legal_value b

/-- No command makes `DLEN` larger: all but `CLR` leave it. -/
theorem exec_dlen_le {i : Instr} {s t : State} (ht : exec i s = .next t) : t.dlen.toNat ≤ s.dlen.toNat := by
  by_cases hi : i = .clr
  · subst hi
    cases ht
    exact Nat.zero_le _
  · rw [(exec_writesOnlyOwn ht).dlen (beq_eq_false_iff_ne.2 hi)]

/-- Every command keeps a state legal. -/
theorem exec_wf {i : Instr} {s t : State} (hs : s.wf) (ht : exec i s = .next t) : t.wf := by
  obtain ⟨hlen, hstatus, hwords⟩ := hs
  refine ⟨(exec_dlen_le ht).trans hlen, exec_status_legal hstatus ht, ?words⟩
  case words => rwa [(exec_writesOnlyOwn ht).wmem]

/-- A register write by the host keeps a state legal: `DLEN` saturates (R23). -/
theorem csrStore_wf (n : Nat) (v : CsrWord) {s : State} (hs : s.wf) : (csrStore n v s).wf := by
  obtain ⟨hlen, hstatus, hwords⟩ := hs
  rw [csrStore_eq]
  refine ⟨?dlen, hstatus, hwords⟩
  case dlen =>
    dsimp only
    split
    · rw [dlenSaturated_toNat]
      exact min_le_right _ _
    · exact hlen

/-- The state after reset is legal. -/
theorem reset_wf : State.reset.wf := ⟨Nat.zero_le _, rfl, reset_wmem_wf⟩

/-- Issuing a word keeps a state legal, whether the word is legal or not. -/
theorem issueCommand_wf {c : CommandWord} {s t : State} (hs : s.wf) (h : issueCommand c s = .next t) : t.wf := by
  rcases issueCommand_cases h with ⟨i, -, ht⟩ | ⟨-, rfl⟩
  · exact exec_wf hs ht
  · obtain ⟨hlen, -, hwords⟩ := hs
    exact ⟨hlen, Status.legal_ofFault _, hwords⟩

/-! ## What issuing a word leaves -/

/-- Issuing a word changes no word of the memory (R7). -/
theorem issueCommand_wmem {c : CommandWord} {s t : State} (h : issueCommand c s = .next t) : t.wmem = s.wmem := by
  rcases issueCommand_cases h with ⟨i, -, ht⟩ | ⟨-, rfl⟩
  · exact (exec_writesOnlyOwn ht).wmem
  · rfl

/-- Issuing a word changes `WIDTH` only when the word is of a command that may write it (R20, R206). -/
theorem issueCommand_width {c : CommandWord} {s t : State} (h : issueCommand c s = .next t)
    (hw : t.width ≠ s.width) : ∃ i, decode c = .ok i ∧ mayWriteCsr 2 i = true := by
  rcases issueCommand_cases h with ⟨i, hi, ht⟩ | ⟨-, rfl⟩
  · exact ⟨i, hi, by_contra fun hno => hw ((exec_writesOnlyOwn ht).width (Bool.not_eq_true _ ▸ hno))⟩
  · exact absurd rfl hw

/-! ## The statements -/

/-- Settles O47: host writes saturate `DLEN` and keep the canonical form, commands leave both and write a `STATUS` of
R34 or R175. -/
theorem stepKeepsWellFormed : Obligations.StepKeepsWellFormed := by
  intro s t hs h
  rcases step_cases h with ⟨-, rfl⟩ | ⟨c, rest, -, hc⟩ | ⟨n, v, rest, -, -, rfl⟩ | ⟨n, rest, r, -, rfl⟩ |
    ⟨a, v, rest, -, rfl⟩ | ⟨rest, -, rfl⟩
  case inl => exact hs
  case inr.inl => exact issueCommand_wf (s := { s with pending := rest, reply := .ack }) hs hc
  case inr.inr.inl => exact csrStore_wf n v hs
  case inr.inr.inr.inl => exact hs
  case inr.inr.inr.inr.inl =>
    obtain ⟨hlen, hstatus, hwords⟩ := hs
    have hstored := wmemStore_wf a v (s := { s with pending := rest }) hwords
    rw [wmemStore_eq] at hstored ⊢
    exact ⟨hlen, hstatus, hstored⟩
  case inr.inr.inr.inr.inr => exact reset_wf

/-- Settles O48: `DLEN` is 0, `STATUS` is clear and no word is listed. -/
theorem resetWellFormed : Obligations.ResetWellFormed := reset_wf

/-- Settles O49: of the transactions only a word write and a reset reach the words. -/
theorem onlyWmemWriteChangesWords : Obligations.OnlyWmemWriteChangesWords := by
  refine ⟨fun i s t ht => (exec_writesOnlyOwn ht).wmem, fun s t h hne => ?step⟩
  rcases step_cases h with ⟨-, rfl⟩ | ⟨c, rest, -, hc⟩ | ⟨n, v, rest, -, -, rfl⟩ | ⟨n, rest, r, -, rfl⟩ |
    ⟨a, v, rest, hp, -⟩ | ⟨rest, hp, -⟩
  case inl => exact absurd rfl hne
  case inr.inl => exact absurd (issueCommand_wmem hc) hne
  case inr.inr.inl =>
    refine absurd ?_ hne
    rw [csrStore_eq]
    rfl
  case inr.inr.inr.inl => exact absurd rfl hne
  case inr.inr.inr.inr.inl => exact .inl ⟨a, v, rest, hp⟩
  case inr.inr.inr.inr.inr => exact .inr ⟨rest, hp⟩

/-- Settles O50: the mnemonics listed are those of the commands that R20 lets write the register. -/
theorem commandsWriteOnlyTheirRegisters : Obligations.CommandsWriteOnlyTheirRegisters := by
  intro i s t ht
  have hown := exec_writesOnlyOwn ht
  refine ⟨hown.pending, hown.reply, hown.wmem, fun hi => ?clrOnly, fun hi => hown.width ?width,
    fun hi => hown.idx ?idx, fun hi => hown.result ?result, fun hi => hown.status ?status⟩
  case clrOnly =>
    have hclr : (i == .clr) = false := beq_eq_false_iff_ne.2 fun h => hi (h ▸ by decide)
    exact ⟨hown.plen hclr, hown.dlen hclr, hown.ctrl hclr⟩
  case width => simp_all [mayWriteCsr]
  case idx => simp_all [mayWriteCsr]
  case result => simp_all [mayWriteCsr]
  case status =>
    cases i with
    | nop => rfl
    | _ => simp [Instr.mnemonic] at hi

/-- Settles O51: besides the host's write and the reset only a command of R206 reaches `WIDTH`. -/
theorem widthChangesOnlyByItsWriters : Obligations.WidthChangesOnlyByItsWriters := by
  intro s t h hne
  rcases step_cases h with ⟨-, rfl⟩ | ⟨c, rest, hp, hc⟩ | ⟨n, v, rest, -, hp, rfl⟩ | ⟨n, rest, r, -, rfl⟩ |
    ⟨a, v, rest, -, rfl⟩ | ⟨rest, hp, -⟩
  case inl => exact absurd rfl hne
  case inr.inl =>
    obtain ⟨i, hi, hwrites⟩ := issueCommand_width hc hne
    exact .inr (.inr ⟨c, i, rest, hp, hi, of_decide_eq_true hwrites⟩)
  case inr.inr.inl =>
    by_cases hn : n = 2
    · subst hn
      exact .inl ⟨v, rest, hp⟩
    · refine absurd ?_ hne
      rw [csrStore_eq]
      exact if_neg hn
  case inr.inr.inr.inl => exact absurd rfl hne
  case inr.inr.inr.inr.inl =>
    refine absurd ?_ hne
    rw [wmemStore_eq]
    rfl
  case inr.inr.inr.inr.inr => exact .inr (.inl ⟨rest, hp⟩)

/-- Settles O53: a fault is written by `raiseFault`, and before it only a lookup has written anything. -/
theorem faultWritesStatusAlone : Obligations.FaultWritesStatusAlone := by
  intro i s t ht hnop herr
  cases shape_of i with
  | nop => exact absurd rfl hnop
  | clr => cases ht; exact absurd rfl herr
  | chkpal =>
    rcases exec_chkpal_cases ht with ⟨-, rfl⟩ | ⟨-, rfl⟩
    · exact absurd rfl herr
    · exact ⟨rfl, rfl, fun _ => rfl⟩
  | reads h =>
    rcases exec_reads_cases h ht with ⟨c, -, rfl⟩ | ⟨e, -, rfl⟩
    · cases c <;> exact absurd rfl herr
    · exact ⟨rfl, rfl, fun _ => rfl⟩
  | looksUp h =>
    have hname : i.mnemonic ∈ ["GETBS", "GETBIO"] := by
      cases i with
      | getbs | getbio => simp [Instr.mnemonic]
      | _ => cases h
    refine ⟨?_, exec_lookup_frame h ht, fun hi => absurd hname hi⟩
    rcases exec_lookup_cases h ht with rfl | ⟨-, rfl⟩ | ⟨v, e, rfl⟩ | ⟨v, b, -, rfl⟩
    · rfl
    · exact absurd rfl herr
    · rfl
    · exact absurd rfl herr

/-- Settles O41: a lookup says valid only for the default index, with a palette, and for an index that passed the
check. -/
theorem lookupIndexInPalette : Obligations.LookupIndexInPalette := by
  intro s t x y z i hi ht hvalid
  obtain ⟨l, hl⟩ : ∃ l, lookupOf i = some l := by
    rcases List.mem_pair.1 hi with rfl | rfl <;> exact ⟨_, rfl⟩
  rcases exec_lookup_cases hl ht with rfl | ⟨hp, rfl⟩ | ⟨v, e, rfl⟩ | ⟨v, b, hv, rfl⟩
  · cases hvalid
  · exact ⟨rfl, Nat.pos_of_ne_zero hp⟩
  · cases hvalid
  · exact ⟨rfl, hv⟩

end Sys2Proof.Machine
end

section
/-! PROOF. The statement on a command issued twice in a row (20_memory.md section 3): what a command depends on, and
that no command changes it. -/

namespace Sys2Proof.Machine

/-! ## Reads of fields in two states -/

theorem paddedField_congr {s t : State} (h : ∀ a, memRead t a = memRead s a) (w k : Nat) :
    paddedField t w k = paddedField s w k := by
  simp only [paddedField, h]

theorem spanningField_congr {s t : State} (h : ∀ a, memRead t a = memRead s a) (w k : Nat) :
    spanningField t w k = spanningField s w k := by
  simp only [spanningField, h]

theorem hmField_congr {s t : State} (h : ∀ a, memRead t a = memRead s a) (k : Nat) : hmField t k = hmField s k := by
  simp only [hmField, h]

/-- The tail scan looks at the fields alone (R152). -/
theorem hmTail_congr {s t : State} (h : ∀ k, hmField t k = hmField s k) (n : Nat) : hmTail t n = hmTail s n := by
  induction n with
  | zero => rfl
  | succ n ih => simp only [hmTail, h, ih]

theorem hmLength_congr {s t : State} (hlen : t.dlen = s.dlen) (h : ∀ k, hmField t k = hmField s k) :
    hmLength t = hmLength s := by
  rw [hmLength, hmLength, hlen, hmTail_congr h]

theorem heightAt_congr {s t : State} (hlen : t.dlen = s.dlen) (h : ∀ k, hmField t k = hmField s k) (k : Nat) :
    heightAt t k = heightAt s k := by
  simp only [heightAt, hmLength_congr hlen h, h]

theorem genfull_congr {s t : State} (h : t.ctrl = s.ctrl) : t.genfull = s.genfull := by
  rw [State.genfull, State.genfull, h]

/-- The two states give the command the same inputs: the registers that it does not write itself, and the reads
(20_memory.md section 3). -/
structure SameInputs (i : Instr) (s t : State) : Prop where
  plen : t.plen = s.plen
  dlen : t.dlen = s.dlen
  ctrl : t.ctrl = s.ctrl
  width : mayWriteCsr 2 i = false → t.width = s.width
  idx : mayWriteCsr 3 i = false → t.idx = s.idx
  reads : ∀ a, memRead t a = memRead s a

/-- A command of one read depends on its inputs alone. -/
theorem readOf_congr {i : Instr} {r : State → Except Stop Commit} (h : readOf i = some r) {s t : State}
    (hst : SameInputs i s t) : r t = r s := by
  cases i with
  | nop | clr | getbs | getbio | chkpal => cases h
  | linbs | linbio => cases h; rfl
  | widthbs | widthbio => cases h; simp only [hst.plen]
  | extpad => cases h; simp only [hst.width rfl, hst.idx rfl, paddedField_congr hst.reads]
  | extspan => cases h; simp only [hst.width rfl, hst.idx rfl, spanningField_congr hst.reads]
  | hmget =>
    cases h
    simp only [genfull_congr hst.ctrl, hst.idx rfl, heightAt_congr hst.dlen (hmField_congr hst.reads)]
  | hmlen =>
    cases h
    simp only [genfull_congr hst.ctrl, hmLength_congr hst.dlen (hmField_congr hst.reads)]

/-! ## A command twice in a row -/

/-- No command of one read changes its own inputs; `STATUS` is none of them. -/
theorem sameInputs_of_reads {i : Instr} {r : State → Except Stop Commit} (h : readOf i = some r) {s t : State}
    (ht : exec i s = .next t) (st : Status) : SameInputs i s (t.setStatus st) := by
  have hown := exec_writesOnlyOwn ht
  have hclr : (i == .clr) = false := by
    refine beq_eq_false_iff_ne.2 ?_
    rintro rfl
    cases h
  refine ⟨hown.plen hclr, hown.dlen hclr, hown.ctrl hclr, hown.width, hown.idx, fun a => ?reads⟩
  case reads => simp only [memRead, State.setStatus_dlen, State.setStatus_wmem, hown.dlen hclr, hown.wmem]

theorem Commit.apply_again (c : Commit) (s : State) (st : Status) :
    c.apply ((c.apply s).setStatus st) = c.apply s := by
  cases c <;> rfl

/-- A command of one read, on what it answered, whatever `STATUS` has become, answers that again. -/
theorem exec_reads_again {i : Instr} {r : State → Except Stop Commit} (h : readOf i = some r) {s t : State}
    (ht : exec i s = .next t) (st : Status) : exec i (t.setStatus st) = .next t := by
  rw [exec_of_readOf h, readOf_congr h (sameInputs_of_reads h ht st)]
  rcases exec_reads_cases h ht with ⟨c, hc, rfl⟩ | ⟨e, he, rfl⟩
  · rw [hc, Micro.finish_ok, Micro.outcome_completed, Commit.apply_again]
  · rw [he]
    rfl

/-- `CHKPAL` on what it answered answers that again. -/
theorem exec_chkpal_again {s t : State} (ht : exec .chkpal s = .next t) : exec .chkpal t = .next t := by
  rcases exec_chkpal_cases ht with ⟨hlt, rfl⟩ | ⟨hge, rfl⟩
  · exact (chkpalChecksRange.2 _).2 hlt
  · exact (chkpalChecksRange.2 _).1 hge

/-- The field of a lookup is placed on what its extraction and its check answered as it was placed before the
extraction, which may have changed `RESULT`; so the extraction and the check answer that again. -/
theorem runUntilFault_extract_again {i : Instr} {l : LookupParts} (h : lookupOf i = some l) {s t : State}
    (ht : runUntilFault [l.extract, .chkpal] (l.place s) = .next t) :
    t.plen = s.plen ∧ t.dlen = s.dlen ∧ runUntilFault [l.extract, .chkpal] (l.place t) = .next t := by
  obtain ⟨r, hr⟩ := lookupOf_extract_reads h
  obtain ⟨u, hu, hend⟩ := runUntilFault_chkpal_cases ht
  have hframe : l.place u = u.setStatus Status.cleared ∧ u.plen = s.plen ∧ u.dlen = s.dlen := by
    rcases exec_extract_cases h hu with ⟨v, b, rfl⟩ | ⟨e, rfl⟩ <;> exact ⟨rfl, rfl, rfl⟩
  obtain ⟨hplace, hplen, hdlen⟩ := hframe
  have hagain := exec_reads_again hr hu Status.cleared
  rw [← hplace] at hagain
  rcases hend with ⟨herr, rfl⟩ | ⟨herr, hcheck⟩
  · exact ⟨hplen, hdlen, runUntilFault_cons_faults hagain herr⟩
  · have hstatus : t = u.setStatus t.status := by
      rcases exec_chkpal_cases hcheck with ⟨-, rfl⟩ | ⟨-, rfl⟩ <;> rfl
    have hsame : l.place t = l.place u := by
      rw [hstatus]
      rfl
    rw [hsame, runUntilFault_cons_completes hagain herr, runUntilFault_chkpal]
    exact ⟨by rw [hstatus]; exact hplen, by rw [hstatus]; exact hdlen, hcheck⟩

/-- A whole lookup on what it answered answers that again. -/
theorem exec_lookup_again {i : Instr} {l : LookupParts} (h : lookupOf i = some l) {s t : State}
    (ht : exec i s = .next t) : exec i t = .next t := by
  rw [exec_of_lookupOf h] at ht ⊢
  split at ht
  case isTrue hp =>
    cases ht
    exact if_pos hp
  case isFalse hp =>
    split at ht
    case isTrue hd =>
      cases ht
      exact (if_neg hp).trans (if_pos hd)
    case isFalse hd =>
      obtain ⟨hplen, hdlen, hagain⟩ := runUntilFault_extract_again h ht
      rw [hplen, hdlen, if_neg hp, if_neg hd, hagain]

/-! ## The statement -/

/-- Settles O54: what a command writes is none of its own inputs. -/
theorem commandsIdempotent : Obligations.CommandsIdempotent := by
  intro i s t ht
  cases shape_of i with
  | nop => rfl
  | clr => cases ht; rfl
  | chkpal => exact exec_chkpal_again ht
  | reads h => exact exec_reads_again h ht t.status
  | looksUp h => exact exec_lookup_again h ht

end Sys2Proof.Machine
end

section
/-! PROOF. The statements on words that no command can tell apart (20_memory.md section 3, 93_implementation_defined.md
U3 and U4): a command in a state whose words are replaced, and the bits of a word that the heightmap reads. -/

namespace Sys2Proof.Machine

/-! ## Other words in the place of the words -/

/-- The state with other words. -/
def State.withWords (s : State) (m : Memory) : State := { s with wmem := m }

theorem State.withWords_dlen (s : State) (m : Memory) : (s.withWords m).dlen = s.dlen := rfl

/-- The outcome with other words in the next state. -/
def outcomeWithWords (m : Memory) : Host.Outcome State Fault Refusal → Host.Outcome State Fault Refusal
  | .next s => .next (s.withWords m)
  | .fault f => .fault f
  | .refused r => .refused r

theorem Commit.apply_withWords (c : Commit) (s : State) (m : Memory) :
    c.apply (s.withWords m) = (c.apply s).withWords m := by
  cases c <;> rfl

/-- A command of one read that reads the same in other words ends alike. -/
theorem exec_reads_withWords {i : Instr} {r : State → Except Stop Commit} (h : readOf i = some r) {s : State}
    {m : Memory} (hr : r (s.withWords m) = r s) : exec i (s.withWords m) = outcomeWithWords m (exec i s) := by
  rw [exec_of_readOf h, exec_of_readOf h, hr]
  match r s with
  | .ok c => exact congrArg _ (c.apply_withWords s m)
  | .error (.fault e) => rfl
  | .error (.unwritten a) => rfl

/-- `CHKPAL` reads no word (R127). -/
theorem exec_chkpal_withWords (s : State) (m : Memory) :
    exec .chkpal (s.withWords m) = outcomeWithWords m (exec .chkpal s) := by
  rw [exec_chkpal_eq, exec_chkpal_eq]
  exact congrArg Host.Outcome.next (apply_ite (State.withWords · m) (s.result.toNat < s.plen.toNat)
    (s.setStatus s.status.checked) (s.raiseFault .range)).symm

/-- When a command ends alike in other words, so does the command with a check after it. -/
theorem runUntilFault_chkpal_withWords {j : Instr} {p : State} {m : Memory}
    (h : exec j (p.withWords m) = outcomeWithWords m (exec j p)) :
    runUntilFault [j, .chkpal] (p.withWords m) = outcomeWithWords m (runUntilFault [j, .chkpal] p) := by
  cases hj : exec j p with
  | fault f => cases f
  | refused r =>
    rw [hj] at h
    rw [runUntilFault_cons_refused hj, runUntilFault_cons_refused h]
    rfl
  | next u =>
    rw [hj] at h
    by_cases herr : u.status.err = 0
    · rw [runUntilFault_cons_completes hj herr, runUntilFault_cons_completes h herr,
        runUntilFault_chkpal, runUntilFault_chkpal]
      exact exec_chkpal_withWords u m
    · rw [runUntilFault_cons_faults hj herr, runUntilFault_cons_faults h herr]
      rfl

/-- Words that read the same below `DLEN` give every read the same outcome (R63). -/
theorem memRead_withWords {s : State} {m : Memory} (h : ∀ a < s.dlen.toNat, m.read a = s.wmem.read a) (a : Nat) :
    memRead (s.withWords m) a = memRead s a := by
  rcases Nat.lt_or_ge a s.dlen.toNat with ha | ha
  · simp only [memRead, State.withWords, h a ha]
  · rw [memRead_trunc ha, memRead_trunc (s := s.withWords m) ha]

theorem sameInputs_withWords {s : State} {m : Memory} (i : Instr)
    (h : ∀ a < s.dlen.toNat, m.read a = s.wmem.read a) : SameInputs i s (s.withWords m) :=
  ⟨rfl, rfl, rfl, fun _ => rfl, fun _ => rfl, memRead_withWords h⟩

/-- Every command ends alike in words that read the same below `DLEN`. -/
theorem exec_withWords {s : State} {m : Memory} (h : ∀ a < s.dlen.toNat, m.read a = s.wmem.read a) (i : Instr) :
    exec i (s.withWords m) = outcomeWithWords m (exec i s) := by
  cases shape_of i with
  | nop => rfl
  | clr => rfl
  | chkpal => exact exec_chkpal_withWords s m
  | reads hr => exact exec_reads_withWords hr (readOf_congr hr (sameInputs_withWords i h))
  | @looksUp _ l hl =>
    obtain ⟨r, hr⟩ := lookupOf_extract_reads hl
    have hextract := exec_reads_withWords hr
      (readOf_congr hr (sameInputs_withWords (s := l.place s) l.extract h))
    rw [exec_of_lookupOf hl, exec_of_lookupOf hl, apply_ite (outcomeWithWords m), apply_ite (outcomeWithWords m),
      ← runUntilFault_chkpal_withWords hextract]
    rfl

/-! ## Bit 63 -/

/-- Nine bits from a place up to 54 on are the same in words that agree below bit 63 (R150, U4). -/
theorem nineBits_congr {d e : Word} (h : d.toNat % 2 ^ 63 = e.toNat % 2 ^ 63) {n : Nat} (hn : n ≤ 54) :
    shr d n &&& 0x1FF = shr e n &&& 0x1FF := by
  refine Nat.eq_of_testBit_eq fun i => ?_
  have hd := shr_and_mask_testBit d n 9 i
  have he := shr_and_mask_testBit e n 9 i
  refine hd.trans (Eq.trans ?_ he.symm)
  by_cases hi : i < 9
  · have hbit : (d.toNat % 2 ^ 63).testBit (n + i) = (e.toNat % 2 ^ 63).testBit (n + i) := by rw [h]
    have hlow : n + i < 63 := by omega
    simpa only [Nat.testBit_mod_two_pow, BitVec.testBit_toNat, hlow, hi] using hbit
  · simp [hi]

/-- Words that agree below bit 63 give the same heightmap fields (U4). -/
theorem hmField_of_bit63 {s : State} {m : Memory}
    (h : ∀ a, (m.read a).map (fun v => v.toNat % 2 ^ 63) = (s.wmem.read a).map (fun v => v.toNat % 2 ^ 63)) (k : Nat) :
    hmField (s.withWords m) k = hmField s k := by
  have hword := h (k / 7)
  rw [hmField_eq, hmField_eq]
  rcases memRead_cases s (k / 7) with ⟨hlen, hread⟩ | ⟨hlen, hnone, hread⟩ | ⟨d, hlen, hsome, hread⟩
  · rw [hread, memRead_trunc (s := s.withWords m) hlen]
  · rw [hnone, Option.map_none, Option.map_eq_none_iff] at hword
    rw [hread, memRead_unwritten (s := s.withWords m) hlen hword]
  · rw [hsome, Option.map_some, Option.map_eq_some_iff] at hword
    obtain ⟨e, he, hagree⟩ := hword
    rw [hread, memRead_ok (s := s.withWords m) hlen he]
    exact congrArg Except.ok (nineBits_congr hagree (by omega))

/-- Both heightmap commands read fields and nothing else of the words (R153, R154). -/
theorem exec_heightmap_withWords {s : State} {m : Memory} (h : ∀ k, hmField (s.withWords m) k = hmField s k) :
    ∀ i ∈ [Instr.hmget, Instr.hmlen], exec i (s.withWords m) = outcomeWithWords m (exec i s) := by
  intro i hi
  rcases List.mem_pair.1 hi with rfl | rfl
  · refine exec_reads_withWords rfl ?_
    rw [heightAt_congr (State.withWords_dlen s m) h]
    rfl
  · refine exec_reads_withWords rfl ?_
    rw [hmLength_congr (State.withWords_dlen s m) h]
    rfl

/-! ## The statements -/

/-- Settles O55: every read at or above `DLEN` is truncated, whatever the word there. -/
theorem wordsBeyondDlenInvisible : Obligations.WordsBeyondDlenInvisible := by
  rintro i s t ⟨ht, hwords⟩
  have h := exec_withWords hwords i
  rw [show s.withWords t.wmem = t from ht.symm] at h
  exact ⟨fun s' hs' => by rw [h, hs']; rfl, fun r hr => by rw [h, hr]; rfl⟩

/-- Settles O46: seven fields of nine bits leave bit 63 of a word unread. -/
theorem heightmapIgnoresBit63 : Obligations.HeightmapIgnoresBit63 := by
  intro s t ht hwords i hi s' hs'
  have h := exec_heightmap_withWords (hmField_of_bit63 hwords) i hi
  rw [show s.withWords t.wmem = t from ht.symm] at h
  rw [h, hs']
  rfl

end Sys2Proof.Machine
end

section
/-! PROOF. The statements on refused commands (10_state.md section 2, 93_implementation_defined.md U2; log entry 2):
why a command is refused, where an extraction and the scan of the heightmap stop, then the statements. -/

namespace Sys2Proof.Machine

/-! ## Why a command is refused -/

/-- Word `a` is below `DLEN` and nothing has written it (R32). -/
def State.Unwritten (s : State) (a : Nat) : Prop := a < s.dlen.toNat ∧ s.wmem.read a = none

theorem unwritten_of_memRead {s : State} {a b : Nat} (h : memRead s b = .error (.unwritten a)) : s.Unwritten a := by
  rcases memRead_error h with ⟨he, -⟩ | ⟨he, ha, hnone⟩
  · cases he
  · cases he
    exact ⟨ha, hnone⟩

theorem unwritten_of_hmLength {s : State} {a : Nat} (h : hmLength s = .error (.unwritten a)) : s.Unwritten a := by
  obtain ⟨b, he, hb, hnone⟩ := hmTail_error le_rfl h
  cases he
  exact ⟨hb, hnone⟩

theorem unwritten_of_heightAt {s : State} {a k : Nat} (h : heightAt s k = .error (.unwritten a)) : s.Unwritten a := by
  cases hlen : hmLength s with
  | error e =>
    obtain rfl : e = .unwritten a := by simpa [heightAt, hlen, bind, Except.bind] using h
    exact unwritten_of_hmLength hlen
  | ok l =>
    rw [heightAt_eq hlen] at h
    split at h
    · cases h
    · exact unwritten_of_memRead (hmField_error (exceptMap_eq_error h))

/-- A command of one read stops without a fault only at a word below `DLEN` that nothing has written. -/
theorem readOf_unwritten {i : Instr} {r : State → Except Stop Commit} (h : readOf i = some r) {s : State} {a : Nat}
    (hr : r s = .error (.unwritten a)) : s.Unwritten a := by
  cases i with
  | nop | clr | getbs | getbio | chkpal => cases h
  | linbs | linbio => cases h; cases hr
  | widthbs | widthbio => cases h; dsimp only at hr; split at hr <;> cases hr
  | extpad =>
    cases h
    dsimp only at hr
    split at hr
    · cases hr
    · exact unwritten_of_memRead (paddedField_error (exceptMap_eq_error hr))
  | extspan =>
    cases h
    dsimp only at hr
    split at hr
    · cases hr
    · rcases spanningField_error (exceptMap_eq_error hr) with hcur | hnext
      · exact unwritten_of_memRead hcur
      · exact unwritten_of_memRead hnext
  | hmget =>
    cases h
    dsimp only at hr
    split at hr
    · exact unwritten_of_heightAt (exceptMap_eq_error hr)
    · cases hr
  | hmlen =>
    cases h
    dsimp only at hr
    split at hr
    · exact unwritten_of_hmLength (exceptMap_eq_error hr)
    · cases hr

theorem exec_reads_refused {i : Instr} {r : State → Except Stop Commit} (h : readOf i = some r) {s : State}
    {ref : Refusal} (href : exec i s = .refused ref) : ∃ a, ref = .unwrittenWord a ∧ s.Unwritten a := by
  rw [exec_of_readOf h] at href
  match hr : r s with
  | .ok c => simp [hr] at href
  | .error (.fault e) => simp [hr] at href
  | .error (.unwritten a) => exact ⟨a, by simpa [hr] using href.symm, readOf_unwritten h hr⟩

/-- The check is never refused, so a command with a check after it is refused as the command is. -/
theorem runUntilFault_chkpal_refused {j : Instr} {p : State} {ref : Refusal}
    (h : runUntilFault [j, .chkpal] p = .refused ref) : exec j p = .refused ref := by
  cases hj : exec j p with
  | fault f => cases f
  | refused r => rwa [runUntilFault_cons_refused hj] at h
  | next u =>
    by_cases herr : u.status.err = 0
    · rw [runUntilFault_cons_completes hj herr, runUntilFault_chkpal, exec_chkpal_eq] at h
      cases h
    · rw [runUntilFault_cons_faults hj herr] at h
      cases h

/-- A command is refused only for a word below `DLEN` that nothing has written, and the refusal names it. -/
theorem exec_refused {i : Instr} {s : State} {ref : Refusal} (href : exec i s = .refused ref) :
    ∃ a, ref = .unwrittenWord a ∧ s.Unwritten a := by
  cases shape_of i with
  | nop => cases href
  | clr => cases href
  | chkpal =>
    rw [exec_chkpal_eq] at href
    cases href
  | reads h => exact exec_reads_refused h href
  | @looksUp _ l h =>
    obtain ⟨r, hr⟩ := lookupOf_extract_reads h
    rw [exec_of_lookupOf h] at href
    split at href
    · cases href
    · split at href
      · cases href
      · exact exec_reads_refused (s := l.place s) hr (runUntilFault_chkpal_refused href)

/-! ## Extractions -/

/-- `EXTPAD` at a usable width is refused at its word when nothing has written it. -/
theorem exec_extpad_unwritten {s : State} (h1 : 1 ≤ s.width.toNat) (h32 : s.width.toNat ≤ 32)
    (h : s.Unwritten (s.idx.toNat / (64 / s.width.toNat))) :
    exec .extpad s = .refused (.unwrittenWord (s.idx.toNat / (64 / s.width.toNat))) := by
  obtain ⟨ha, hnone⟩ := h
  rw [exec_extpad_eq h1 h32, paddedField_eq, memRead_unwritten ha hnone]
  rfl

/-- The first word that a spanning field reads and nothing has written: the current one, or the next one of a field
that crosses (R124; log entry 15). -/
def SpanningMeets (s : State) (w k a : Nat) : Prop :=
  a = w * k / 64 ∨ (a = w * k / 64 + 1 ∧ 64 - w * k % 64 < w ∧ s.wmem.read (w * k / 64) ≠ none)

/-- A spanning field stops at the first word that it reads and nothing has written. -/
theorem spanningField_unwritten {s : State} {w k a : Nat} (h : s.Unwritten a) (hmeets : SpanningMeets s w k a) :
    spanningField s w k = .error (.unwritten a) := by
  obtain ⟨ha, hnone⟩ := h
  rcases hmeets with rfl | ⟨rfl, hcross, hcur⟩
  · rcases Nat.lt_or_ge (64 - w * k % 64) w with hw | hw
    · rw [spanningField_crossing hw, memRead_unwritten ha hnone]
    · rw [spanningField_inside hw, memRead_unwritten ha hnone]
  · obtain ⟨d, hd⟩ := Option.ne_none_iff_exists'.1 hcur
    rw [spanningField_crossing hcross, memRead_ok (by omega) hd, memRead_unwritten ha hnone]

/-- `EXTSPAN` at a usable width is refused at the first word that its field reads and nothing has written. -/
theorem exec_extspan_unwritten {s : State} {a : Nat} (h32 : s.width.toNat ≤ 32) (h : s.Unwritten a)
    (hmeets : SpanningMeets s s.width.toNat s.idx.toNat a) : exec .extspan s = .refused (.unwrittenWord a) := by
  rw [exec_extspan_eq h32, spanningField_unwritten h hmeets]
  rfl

/-- `GETBS` is refused at the word of its field. -/
theorem exec_getbs_unwritten {s : State} {x y z : BitVec 4} (hp : s.plen.toNat ≠ 0)
    (h : s.Unwritten (linearIndex x y z / (64 / blockStateWidth s.plen.toNat))) :
    exec (.getbs x y z) s =
      .refused (.unwrittenWord (linearIndex x y z / (64 / blockStateWidth s.plen.toNat))) := by
  obtain ⟨h4, h32⟩ := blockStateWidth_plen_bounds s.plen
  have hd : s.dlen.toNat ≠ 0 := Nat.ne_zero_of_lt h.1
  have hwidth := s.placeField_width_toNat (linearIndex x y z) h32
  have hindex := s.placeField_idx_toNat (blockStateWidth s.plen.toNat) (linearIndex_lt x y z)
  rw [exec_getbs_placed hp hd]
  refine runUntilFault_cons_refused ?_
  rw [exec_extpad_unwritten (by omega) (by omega) (by rw [hwidth, hindex]; exact h), hwidth, hindex]

/-- `GETBIO` is refused at the first word that its field reads and nothing has written. -/
theorem exec_getbio_unwritten {s : State} {x y z : BitVec 4} {a : Nat} (hp : s.plen.toNat ≠ 0) (h : s.Unwritten a)
    (hmeets : SpanningMeets s (biomeWidth s.plen.toNat) (subCellIndex x y z) a) :
    exec (.getbio x y z) s = .refused (.unwrittenWord a) := by
  have h32 := biomeWidth_plen_le s.plen
  have hd : s.dlen.toNat ≠ 0 := Nat.ne_zero_of_lt h.1
  have hwidth := s.placeField_width_toNat (subCellIndex x y z) h32
  have hindex := s.placeField_idx_toNat (biomeWidth s.plen.toNat) ((subCellIndex_lt x y z).trans (by decide))
  rw [exec_getbio_placed hp hd]
  refine runUntilFault_cons_refused (exec_extspan_unwritten (by omega) h ?_)
  rw [hwidth, hindex]
  exact hmeets

/-! ## The scan of the heightmap -/

/-- The scan goes down over zero fields to the first field that is not there (R152). -/
theorem hmTail_error_of_zeros {s : State} {j n : Nat} {e : Stop} (hj : j < n) (he : hmField s j = .error e)
    (hzero : ∀ k, j < k → k < n → hmField s k = .ok 0) : hmTail s n = .error e := by
  induction n with
  | zero => exact absurd hj (Nat.not_lt_zero j)
  | succ n ih =>
    rw [hmTail_succ]
    rcases Nat.lt_or_eq_of_le (Nat.le_of_lt_succ hj) with hlt | rfl
    · rw [hzero n hlt (Nat.lt_succ_self n)]
      exact ih hlt fun k hk hkn => hzero k hk (Nat.lt_succ_of_lt hkn)
    · rw [he]

/-- The scan ends above a non-zero field when every field from that one up is there (R152). -/
theorem hmTail_ok_of_ne_zero {s : State} {j n v : Nat} (hj : j < n) (hv : hmField s j = .ok v) (hne : v ≠ 0)
    (hread : ∀ k, j < k → k < n → ∃ u, hmField s k = .ok u) : ∃ l, hmTail s n = .ok l ∧ j < l := by
  induction n with
  | zero => exact absurd hj (Nat.not_lt_zero j)
  | succ n ih =>
    rw [hmTail_succ]
    rcases Nat.lt_or_eq_of_le (Nat.le_of_lt_succ hj) with hlt | rfl
    · obtain ⟨u, hu⟩ := hread n hlt (Nat.lt_succ_self n)
      by_cases hu0 : u = 0
      · simp only [hu, if_pos hu0]
        exact ih hlt fun k hk hkn => hread k hk (Nat.lt_succ_of_lt hkn)
      · simp only [hu, if_neg hu0]
        exact ⟨n + 1, rfl, hj⟩
    · simp only [hv, if_neg hne]
      exact ⟨j + 1, rfl, Nat.lt_succ_self j⟩

/-- A field of a word that nothing has written is not there. -/
theorem hmField_unwritten {s : State} {k : Nat} (h : s.Unwritten (k / 7)) :
    hmField s k = .error (.unwritten (k / 7)) := by
  rw [hmField_eq, memRead_unwritten h.1 h.2]

/-- A field of a written word is its nine bits (R150). -/
theorem hmField_of_read {s : State} {k : Nat} {d : Word} (hlen : k / 7 < s.dlen.toNat)
    (hd : s.wmem.read (k / 7) = some d) : hmField s k = .ok (d.toNat / 2 ^ (9 * (k % 7)) % 512) := by
  rw [hmField_eq, memRead_ok hlen hd]
  exact congrArg Except.ok (shr_and_mask d _ 9)

/-- The first `n` fields of nine bits are zero exactly when all the bits of them are. -/
theorem mod_eq_zero_iff_fields (d n : Nat) : d % 2 ^ (9 * n) = 0 ↔ ∀ i < n, d / 2 ^ (9 * i) % 512 = 0 := by
  induction n with
  | zero => simp [Nat.mod_one]
  | succ n ih =>
    rw [Nat.mul_succ, pow_add, Nat.mod_mul, Nat.add_eq_zero_iff, ih, Nat.forall_lt_succ_right]
    simp

/-- Seven fields of zero are all of a word but bit 63 (R150). -/
theorem fields_zero_iff (d : Nat) : d % 2 ^ 63 = 0 ↔ ∀ i < 7, d / 2 ^ (9 * i) % 512 = 0 := mod_eq_zero_iff_fields d 7

/-- Every word from above `a` to `DLEN` is written and has zero fields alone. -/
def State.ZeroAbove (s : State) (a : Nat) : Prop :=
  ∀ b, a < b → b < s.dlen.toNat → ∃ v, s.wmem.read b = some v ∧ v.toNat % 2 ^ 63 = 0

theorem State.ZeroAbove.hmField_eq_zero {s : State} {a k : Nat} (h : s.ZeroAbove a) (ha : a < k / 7)
    (hk : k / 7 < s.dlen.toNat) : hmField s k = .ok 0 := by
  obtain ⟨d, hd, hzero⟩ := h (k / 7) ha hk
  rw [hmField_of_read hk hd, (fields_zero_iff d.toNat).1 hzero (k % 7) (Nat.mod_lt k (by decide))]

/-- The scan stops at a word that nothing has written when only zero fields are above it. -/
theorem hmLength_unwritten {s : State} {a : Nat} (h : s.Unwritten a) (hzero : s.ZeroAbove a) :
    hmLength s = .error (.unwritten a) := by
  have hlen := h.1
  have hword : (7 * a + 6) / 7 = a := by omega
  have hlast : hmField s (7 * a + 6) = .error (.unwritten a) := by
    rw [hmField_unwritten (by rwa [hword]), hword]
  exact hmTail_error_of_zeros (n := 7 * s.dlen.toNat) (by omega) hlast fun k hk hkn =>
    hzero.hmField_eq_zero (by omega) (by omega)

/-- The scan ends in the highest word that has a non-zero field, when the words from there up are written. -/
theorem hmLength_of_ne_zero {s : State} {b : Nat} {u : Word} (hb : b < s.dlen.toNat) (hu : s.wmem.read b = some u)
    (hne : u.toNat % 2 ^ 63 ≠ 0) (hzero : s.ZeroAbove b) : ∃ l, hmLength s = .ok l ∧ 7 * b < l := by
  obtain ⟨i, hi, hfield⟩ : ∃ i < 7, u.toNat / 2 ^ (9 * i) % 512 ≠ 0 := by
    by_contra hall
    exact hne ((fields_zero_iff u.toNat).2 (by simpa using hall))
  have hread : ∀ k, k / 7 = b → hmField s k = .ok (u.toNat / 2 ^ (9 * (k % 7)) % 512) := by
    rintro k rfl
    exact hmField_of_read hb hu
  have hnonzero := hread (7 * b + i) (by omega)
  rw [show (7 * b + i) % 7 = i by omega] at hnonzero
  obtain ⟨l, hl, hlt⟩ := hmTail_ok_of_ne_zero (n := 7 * s.dlen.toNat) (by omega) hnonzero hfield fun k hk hkn => by
    rcases Nat.lt_or_ge b (k / 7) with hgt | hle
    · exact ⟨0, hzero.hmField_eq_zero hgt (by omega)⟩
    · exact ⟨_, hread k (by omega)⟩
  exact ⟨l, hl, by omega⟩

/-- Without a retained length there is no height (R153). -/
theorem heightAt_of_hmLength_error {s : State} {e : Stop} (h : hmLength s = .error e) (k : Nat) :
    heightAt s k = .error e := by
  simp [heightAt, h, bind, Except.bind]

/-- Both heightmap commands are refused where their scan stops. -/
theorem exec_heightmap_scan_unwritten {s : State} {a : Nat} (hc : s.ctrl = 1) (h : s.Unwritten a)
    (hzero : s.ZeroAbove a) : ∀ i ∈ [Instr.hmget, Instr.hmlen], exec i s = .refused (.unwrittenWord a) := by
  have hscan := hmLength_unwritten h hzero
  intro i hi
  rcases List.mem_pair.1 hi with rfl | rfl
  · rw [exec_hmget_full hc, heightAt_of_hmLength_error hscan]
    rfl
  · rw [exec_hmlen_full hc, hscan]
    rfl

/-- `HMGET` is refused at the word of its field when the scan ends in a word above. -/
theorem exec_hmget_field_unwritten {s : State} {b : Nat} {u : Word} (hc : s.ctrl = 1)
    (h : s.Unwritten (s.idx.toNat / 7)) (hab : s.idx.toNat / 7 < b) (hb : b < s.dlen.toNat)
    (hu : s.wmem.read b = some u) (hne : u.toNat % 2 ^ 63 ≠ 0) (hzero : s.ZeroAbove b) :
    exec .hmget s = .refused (.unwrittenWord (s.idx.toNat / 7)) := by
  obtain ⟨l, hl, hlt⟩ := hmLength_of_ne_zero hb hu hne hzero
  rw [exec_hmget_full hc, heightAt_eq hl, if_neg (by omega), hmField_unwritten h]
  rfl

/-! ## The statements -/

/-- Settles O57: the reads of the unit are the only source of a refusal. -/
theorem refusedOnlyForUnwrittenWord : Obligations.RefusedOnlyForUnwrittenWord := fun _ _ _ => exec_refused

/-- Settles O56: a command that has no next state is refused for a word that the host has not written. -/
theorem loadedCommandsAnswer : Obligations.LoadedCommandsAnswer := by
  intro i s hl
  cases h : exec i s with
  | next t => exact ⟨t, rfl⟩
  | fault f => cases f
  | refused ref =>
    obtain ⟨a, -, ha, hnone⟩ := exec_refused h
    have hsome := hl a ha
    simp [hnone] at hsome

/-- Settles O58: an extraction stops at the first of its words that is unwritten, and the scan where it meets one. -/
theorem unwrittenReadsRefuseCommands : Obligations.UnwrittenReadsRefuseCommands := by
  refine ⟨?extpad, ?extspan, ?getbs, ?getbio, ?heightmap⟩
  case extpad =>
    rintro s w a rfl h1 h32 rfl ha hnone
    exact exec_extpad_unwritten h1 h32 ⟨ha, hnone⟩
  case extspan =>
    rintro s w p a rfl rfl h32 hnone ha hmeets
    exact exec_extspan_unwritten h32 ⟨ha, hnone⟩ hmeets
  case getbs =>
    rintro s x y z w a hp rfl rfl ha hnone
    exact exec_getbs_unwritten hp ⟨ha, hnone⟩
  case getbio =>
    rintro s x y z w p a hp rfl rfl hnone ha hmeets
    rw [← subCellIndex_eq] at hmeets
    exact exec_getbio_unwritten hp ⟨ha, hnone⟩ hmeets
  case heightmap =>
    intro s a hc ha hnone
    refine ⟨exec_heightmap_scan_unwritten hc ⟨ha, hnone⟩, ?_⟩
    rintro b u rfl hab hb hu hne hzero
    exact exec_hmget_field_unwritten hc ⟨ha, hnone⟩ hab hb hu hne hzero

end Sys2Proof.Machine
end

section
/-! PROOF. The statement on canonical memories (10_state.md section 2; log entry 1): two rising memories that read
alike, entry by entry. -/

namespace Sys2Proof.Machine

/-! ## Rising memories -/

/-- A word below all the words listed has no value. -/
theorem Memory.read_eq_none {m : Memory} {a : Nat} (h : ∀ c ∈ m, a < c.1) : m.read a = none := by
  induction m with
  | nil => rfl
  | cons d m ih =>
    obtain ⟨b, w⟩ := d
    have hab : a < b := h (b, w) List.mem_cons_self
    rw [Memory.read, if_neg hab.ne, ih fun c hc => h c (List.mem_cons_of_mem _ hc)]

/-- The first word listed reads its value. -/
theorem Memory.read_cons_same (m : Memory) (b : Nat) (v : Word) : Memory.read ((b, v) :: m) b = some v :=
  if_pos rfl

/-- A rising memory whose words read like those of a memory that begins at `b` does not begin above `b`. -/
theorem Memory.head_le_of_read_eq {m n : Memory} {b c : Nat} {v w : Word}
    (hn : ((c, w) :: n).Pairwise fun d e : Nat × Word => d.1 < e.1)
    (h : Memory.read ((b, v) :: m) b = Memory.read ((c, w) :: n) b) : c ≤ b := by
  by_contra hlt
  have hnone : Memory.read ((c, w) :: n) b = none := by
    refine Memory.read_eq_none fun d hd => ?_
    rcases List.mem_cons.1 hd with rfl | hd
    · exact not_le.1 hlt
    · exact (not_le.1 hlt).trans ((List.pairwise_cons.1 hn).1 d hd)
  rw [Memory.read_cons_same, hnone] at h
  cases h

/-- Two rising memories that read alike are the same. -/
theorem Memory.eq_of_read_eq {m n : Memory} (hm : m.Pairwise fun d e => d.1 < e.1)
    (hn : n.Pairwise fun d e => d.1 < e.1) (h : ∀ a, m.read a = n.read a) : m = n := by
  induction m generalizing n with
  | nil =>
    cases n with
    | nil => rfl
    | cons d n => cases (h d.1).trans (Memory.read_cons_same n d.1 d.2)
  | cons d m ih =>
    obtain ⟨b, v⟩ := d
    cases n with
    | nil => cases (Memory.read_cons_same m b v).symm.trans (h b)
    | cons e n =>
      obtain ⟨c, w⟩ := e
      obtain rfl : b = c :=
        le_antisymm (Memory.head_le_of_read_eq hm (h c).symm) (Memory.head_le_of_read_eq hn (h b))
      obtain ⟨hbm, hrisingM⟩ := List.pairwise_cons.1 hm
      obtain ⟨hbn, hrisingN⟩ := List.pairwise_cons.1 hn
      obtain rfl : v = w := by simpa [Memory.read_cons_same] using h b
      refine congrArg _ (ih hrisingM hrisingN fun a => ?_)
      by_cases hab : a = b
      · rw [hab, Memory.read_eq_none hbm, Memory.read_eq_none hbn]
      · simpa [Memory.read, hab] using h a

/-! ## The statement -/

/-- Settles O59: in rising order the least word that reads is the first entry of both. -/
theorem canonicalMemoryUnique : Obligations.CanonicalMemoryUnique :=
  fun _ _ hm hn h => Memory.eq_of_read_eq hm.1 hn.1 h

end Sys2Proof.Machine
end

section
/-! PROOF. The statement on what the host concludes from `STATUS` (60_exceptions.md section 1, R172, R186). -/

namespace Sys2Proof.Machine

/-- Settles O60: the reading and the category look at `ERR` first, then at the flags. -/
theorem hostReadsOutcome : Obligations.HostReadsOutcome := by
  refine fun st => ⟨fun herr => if_pos herr, fun herr hvalid => ?answer, fun herr hvalid => ?noValue, rfl⟩
  case answer => rw [Status.reading, if_neg (not_not.2 herr), if_pos hvalid]
  case noValue => rw [Status.reading, if_neg (not_not.2 herr), if_neg (by rw [hvalid]; decide)]

end Sys2Proof.Machine
end

section
/-! PROOF. The statement on a read after a write (20_memory.md section 4): what one transaction leaves, what a run of
them leaves, then the statement. -/

namespace Sys2Proof.Machine

/-! ## What one transaction leaves -/

/-- All that a register write can do: issue a word, or store (R21, R29). -/
theorem csrWriteTransaction_cases {n : Nat} {v : CsrWord} {s t : State} (h : csrWriteTransaction n v s = .next t) :
    (n = 7 ∧ issueCommand v (s.setReply .ack) = .next t) ∨ (n ≠ 7 ∧ t = (csrStore n v s).setReply .ack) := by
  unfold csrWriteTransaction at h
  split at h
  case isTrue hn => exact .inl ⟨hn, h⟩
  case isFalse hn => exact .inr ⟨hn, (Host.Outcome.next.inj h).symm⟩

/-- A word read that answers writes the reply alone (R31). -/
theorem wmemReadTransaction_cases {a : Nat} {s t : State} (h : wmemReadTransaction a s = .next t) :
    ∃ r, t = s.setReply r := by
  unfold wmemReadTransaction at h
  split at h
  · split at h
    · exact ⟨_, (Host.Outcome.next.inj h).symm⟩
    · cases h
  · exact ⟨_, (Host.Outcome.next.inj h).symm⟩

/-- Issuing a word takes nothing from the queue. -/
theorem issueCommand_pending {c : CommandWord} {s t : State} (h : issueCommand c s = .next t) :
    t.pending = s.pending := by
  rcases issueCommand_cases h with ⟨i, -, ht⟩ | ⟨-, rfl⟩
  · exact (exec_writesOnlyOwn ht).pending
  · rfl

/-- A transaction, once taken, takes nothing more from the queue. -/
theorem runTransaction_pending {tr : Transaction} {s t : State} (h : runTransaction tr s = .next t) :
    t.pending = s.pending := by
  cases tr with
  | csrWrite n v =>
    rcases csrWriteTransaction_cases h with ⟨-, hc⟩ | ⟨-, rfl⟩
    · rw [issueCommand_pending hc, State.setReply_pending]
    · rw [csrStore_eq]
      rfl
  | csrRead n => cases h; rfl
  | wmemWrite a v =>
    cases h
    rw [wmemStore_eq]
    rfl
  | wmemRead a =>
    obtain ⟨r, rfl⟩ := wmemReadTransaction_cases h
    rfl
  | reset => cases h; rfl

/-- A transaction that does not write the word leaves it (R31). -/
theorem runTransaction_keeps_word {tr : Transaction} {a : Nat} (htr : tr.writesWord a = false) {s t : State}
    (h : runTransaction tr s = .next t) : t.wmem.read a = s.wmem.read a := by
  cases tr with
  | csrWrite n v =>
    rcases csrWriteTransaction_cases h with ⟨-, hc⟩ | ⟨-, rfl⟩
    · rw [issueCommand_wmem hc, State.setReply_wmem]
    · rw [csrStore_eq]
      rfl
  | csrRead n => cases h; rfl
  | wmemWrite b v =>
    cases h
    have hba : a ≠ b := (beq_eq_false_iff_ne.1 htr).symm
    rw [State.setReply_wmem, wmemStore_eq, apply_ite (Memory.read · a), Memory.read_write_other _ _ hba, ite_self]
  | wmemRead b =>
    obtain ⟨r, rfl⟩ := wmemReadTransaction_cases h
    rfl
  | reset => cases htr

/-- A register that a command may not write reads the same after it (R20). -/
theorem WritesOnlyOwn.csrValue_eq {i : Instr} {s t : State} (h : WritesOnlyOwn i s t) {n : Nat}
    (hn : mayWriteCsr n i = false) : csrValue n t = csrValue n s := by
  match n with
  | 0 => exact h.plen hn
  | 1 => exact congrArg (BitVec.setWidth 32) (h.dlen hn)
  | 2 => exact congrArg (BitVec.setWidth 32) (h.width hn)
  | 3 => exact h.idx hn
  | 4 => exact h.result hn
  | 5 => exact congrArg (fun st => BitVec.setWidth 32 (Status.bits st)) (h.status hn)
  | 6 => exact congrArg (BitVec.setWidth 32) (h.ctrl hn)
  | n + 7 => rfl

/-- A write to another register leaves a register's value (R21). -/
theorem csrValue_csrStore_other {m n : Nat} (hmn : m ≠ n) (v : CsrWord) (s : State) :
    csrValue n (csrStore m v s) = csrValue n s := by
  rw [csrStore_eq]
  match n with
  | 0 => exact if_neg hmn
  | 1 => exact congrArg (BitVec.setWidth 32) (if_neg hmn)
  | 2 => exact congrArg (BitVec.setWidth 32) (if_neg hmn)
  | 3 => exact if_neg hmn
  | 4 | 5 => rfl
  | 6 => exact congrArg (BitVec.setWidth 32) (if_neg hmn)
  | n + 7 => rfl

/-- A fault leaves the value of every register but `STATUS` (R175). -/
theorem csrValue_raiseFault {n : Nat} (hn : n ≠ 5) (s : State) (e : FaultCode) :
    csrValue n (s.raiseFault e) = csrValue n s := by
  match n with
  | 0 | 1 | 2 | 3 | 4 | 6 => rfl
  | 5 => exact absurd rfl hn
  | n + 7 => rfl

/-- Issuing a word that does not write the register leaves its value. -/
theorem issueCommand_keeps_csr {c : CommandWord} {n : Nat} (hc : (Transaction.csrWrite 7 c).writesCsr n = false)
    {s t : State} (h : issueCommand c s = .next t) : csrValue n t = csrValue n s := by
  rcases issueCommand_cases h with ⟨i, hi, ht⟩ | ⟨⟨e, he⟩, rfl⟩
  · exact (exec_writesOnlyOwn ht).csrValue_eq (by simpa [Transaction.writesCsr, hi] using hc)
  · exact csrValue_raiseFault (by simpa [Transaction.writesCsr, he] using hc) s _

/-- A transaction that does not write the register leaves its value. -/
theorem runTransaction_keeps_csr {tr : Transaction} {n : Nat} (htr : tr.writesCsr n = false) {s t : State}
    (h : runTransaction tr s = .next t) : csrValue n t = csrValue n s := by
  cases tr with
  | csrWrite m v =>
    rcases csrWriteTransaction_cases h with ⟨rfl, hc⟩ | ⟨hm, rfl⟩
    · rw [issueCommand_keeps_csr htr hc]
      rfl
    · have hmn : m ≠ n := by simpa [Transaction.writesCsr, hm] using htr
      exact csrValue_csrStore_other hmn v s
  | csrRead m => cases h; rfl
  | wmemWrite a v =>
    cases h
    rw [wmemStore_eq]
    rfl
  | wmemRead a =>
    obtain ⟨r, rfl⟩ := wmemReadTransaction_cases h
    rfl
  | reset => cases htr

/-! ## Runs of transactions -/

/-- A run over the transactions of `mid` that answers leaves the rest of the queue, and whatever each of the
transactions leaves. -/
theorem run_through {α : Type} (f : State → α) {mid rest : List Transaction}
    (hmid : ∀ tr ∈ mid, ∀ s t, runTransaction tr s = .next t → f t = f s)
    (hqueue : ∀ (s : State) (ts : List Transaction), f { s with pending := ts } = f s) {s u : State}
    (hp : s.pending = mid ++ rest) (h : core.run mid.length s = .next u) : u.pending = rest ∧ f u = f s := by
  induction mid generalizing s with
  | nil => cases h; exact ⟨hp, rfl⟩
  | cons tr mid ih =>
    obtain ⟨t, ht, hrest⟩ := run_first h
    have hstep : runTransaction tr { s with pending := mid ++ rest } = .next t := (step_of_pending hp).symm.trans ht
    obtain ⟨hu, hf⟩ := ih (fun tr' htr' => hmid tr' (List.mem_cons_of_mem _ htr')) (runTransaction_pending hstep) hrest
    exact ⟨hu, hf.trans ((hmid tr List.mem_cons_self _ _ hstep).trans (hqueue s _))⟩

/-- Over a run that does not write it a word keeps its value. -/
theorem run_keeps_word {mid rest : List Transaction} {a : Nat} (hmid : ∀ tr ∈ mid, tr.writesWord a = false)
    {s u : State} (hp : s.pending = mid ++ rest) (h : core.run mid.length s = .next u) :
    u.pending = rest ∧ u.wmem.read a = s.wmem.read a :=
  run_through (fun s => s.wmem.read a) (fun tr htr _ _ => runTransaction_keeps_word (hmid tr htr)) (fun _ _ => rfl)
    hp h

/-- Over a run that does not write it a register keeps its value. -/
theorem run_keeps_csr {mid rest : List Transaction} {n : Nat} (hmid : ∀ tr ∈ mid, tr.writesCsr n = false)
    {s u : State} (hp : s.pending = mid ++ rest) (h : core.run mid.length s = .next u) :
    u.pending = rest ∧ csrValue n u = csrValue n s :=
  run_through (csrValue n) (fun tr htr _ _ => runTransaction_keeps_csr (hmid tr htr)) (fun _ _ => rfl) hp h

/-- A run that comes to a register read answers with the register's value in one step more. -/
theorem run_csrRead {k n : Nat} {rest : List Transaction} {s u : State} (h : core.run k s = .next u)
    (hp : u.pending = .csrRead n :: rest) :
    ∃ t, core.run (k + 1) s = .next t ∧ t.reply = .csr (csrValue n u) ∧ t.pending = rest :=
  ⟨_, (run_succ h).trans (step_of_csrRead hp), rfl, rfl⟩

/-- A register that the host may write reads what the write stored (R21 to R25, R28). -/
theorem csrValue_csrStore_same {n : Nat} (hn : n ∈ [0, 1, 2, 3, 6]) (v : CsrWord) (s : State) :
    csrValue n (csrStore n v s) =
      if n = 1 then BitVec.ofNat 32 (min v.toNat 2048)
      else if n = 2 then BitVec.ofNat 32 (min v.toNat 63)
      else if n = 6 then BitVec.ofNat 32 (v.toNat % 2)
      else v := by
  rw [csrValue_eq, csrStore_eq]
  simp only [List.mem_cons, List.not_mem_nil, or_false] at hn
  rcases hn with rfl | rfl | rfl | rfl | rfl
  · rfl
  · exact congrArg (BitVec.ofNat 32) (dlenSaturated_toNat v.toNat)
  · exact congrArg (BitVec.ofNat 32) (widthSaturated_toNat v.toNat)
  · rfl
  · simp [BitVec.extractLsb'_toNat]

/-- After reset every register reads 0 (R36). -/
theorem csrValue_reset (n : Nat) (ts : List Transaction) : csrValue n { State.reset with pending := ts } = 0 := by
  match n with
  | 0 | 1 | 2 | 3 | 4 | 6 => rfl
  | 5 => exact (by decide : (Status.bits ⟨0, false, false, false⟩).setWidth 32 = (0 : CsrWord))
  | n + 7 => rfl

/-! ## The statement -/

/-- Settles O15: the first transaction sets the place, the ones after it leave the place, and the read finds it. -/
theorem readReturnsLatestWrite : Obligations.ReadReturnsLatestWrite := by
  refine ⟨?word, ?register, ?reset, ?kept⟩
  case word =>
    intro s u mid rest a v ha hp hmid hrun
    obtain ⟨t, ht, hrest⟩ := run_first hrun
    obtain rfl := Host.Outcome.next.inj (ht.symm.trans (step_of_wmemWrite hp))
    obtain ⟨hu, hkept⟩ := run_keeps_word hmid rfl hrest
    have hword : u.wmem.read a = some v := by
      rw [hkept]
      dsimp only
      rw [if_pos ha, Memory.read_write_same]
    exact ⟨fun hlen => memRead_ok hlen hword,
      _, (run_succ hrun).trans (step_of_wmemRead_written hu ha hword), rfl, rfl⟩
  case register =>
    intro s u mid rest n v hn hp hmid hrun
    have hn7 : n ≠ 7 := by rintro rfl; exact absurd hn (by decide)
    obtain ⟨t, ht, hrest⟩ := run_first hrun
    obtain rfl := Host.Outcome.next.inj (ht.symm.trans (step_of_csrWrite_store hn7 hp))
    obtain ⟨hu, hkept⟩ := run_keeps_csr hmid (by rw [csrStore_eq]; rfl) hrest
    obtain ⟨t, hread, hreply, hpending⟩ := run_csrRead hrun hu
    refine ⟨t, hread, hpending, ?_⟩
    rw [hreply, hkept, ← csrValue_csrStore_same hn v { s with pending := mid ++ .csrRead n :: rest }]
    rfl
  case reset =>
    intro s u mid rest n hp hmid hrun
    obtain ⟨t, ht, hrest⟩ := run_first hrun
    obtain rfl := Host.Outcome.next.inj (ht.symm.trans (step_of_reset hp))
    obtain ⟨hu, hkept⟩ := run_keeps_csr hmid rfl hrest
    obtain ⟨t, hread, hreply, hpending⟩ := run_csrRead hrun hu
    refine ⟨t, hread, ?_, hpending⟩
    rw [hreply, hkept, csrValue_reset]
  case kept =>
    intro s u mid rest n hp hmid hrun
    obtain ⟨hu, hkept⟩ := run_keeps_csr hmid hp hrun
    rw [← hkept]
    exact run_csrRead hrun hu

end Sys2Proof.Machine
end
